-- ==== Sys2Proof/Word.lean ====
section
/-!
DEFINITION. The word and address types (spec 00_scope.md R8, R9). A word is an unbounded integer and an address is an
unbounded natural number: no width, no wrap, no bytes (R35). They are Lean's own `Int` and `Nat`; the two names below are
only documentation of what a value stands for.
-/
namespace Sys2Proof

/-- `WORD` of R8: the content of a memory cell, a parameter, a register value, a queue element. -/
abbrev Word := Int

/-- `ADDR` of R8: the address of a memory cell. -/
abbrev Addr := Nat

end Sys2Proof
end

