-- ==== Sys2Proof/Config.lean ====
section
/-!
DEFINITION. What an implementation fixes. The spec leaves no parameter open (R8) and the machine has no configuration
(R28c), so there is no free value here; only the spec's identity label and the reset vector.
-/
namespace Sys2Proof

/-- The identity label (R3, decision D1). It carries no behaviour. -/
def Config.identity : String := "Intcode-CORE (dcoxall/advent-of-code-2019), source edition v7"

/-- The reset vector: execution starts at address 0 (R38, R114). -/
def Config.resetVector : Nat := 0

end Sys2Proof
end

