-- ==== Sys2Proof/Syntax.lean ====
section
/-!
DEFINITION. The instructions as syntax: addressing modes (R51), operands (R52), opcodes and their formats (R53, R54), and
`Instr`, one constructor per row of spec/opcode_table.json. An instruction keeps the mode digits as they were decoded,
the unrecognised ones too, because a bad mode digit is found only when its parameter is resolved (R51, R62, R66).
-/
namespace Sys2Proof

/-- An addressing mode (R51). `unrecognized d` is a mode digit `d` from 3 to 9, which raises InvalidAddressingMode when the
parameter is resolved. -/
inductive Mode where
  | position
  | immediate
  | relative
  | unrecognized (digit : Nat)
deriving DecidableEq, Repr

/-- A parameter of an instruction: its mode and its raw value (R16, R52). -/
structure Operand where
  mode : Mode
  raw : Int
deriving DecidableEq, Repr

/-- What an instruction does with a parameter (R16): consume its value, or name the cell it writes. -/
inductive Role where
  | read
  | write
deriving DecidableEq, Repr

/-- The five formats of R53. -/
inductive Format where
  | f0
  | f1w
  | f1r
  | f2r
  | f3
deriving DecidableEq, Repr

/-- The ten opcodes of R54. -/
inductive Opcode where
  | add
  | mul
  | inp
  | out
  | jt
  | jf
  | lt
  | eq
  | arb
  | hlt
deriving DecidableEq, Repr

/-- The instructions of the opcode table (R54), with their parameters `a`, `b` and `c` in order. -/
inductive Instr where
  | add (a b c : Operand)
  | mul (a b c : Operand)
  | inp (a : Operand)
  | out (a : Operand)
  | jt (a b : Operand)
  | jf (a b : Operand)
  | lt (a b c : Operand)
  | eq (a b c : Operand)
  | arb (a : Operand)
  | hlt
deriving DecidableEq, Repr

end Sys2Proof
end

