-- ==== Sys2Proof/WellFormed.lean ====
section
/-!
DEFINITION. Which terms of `Instr` stand for words of memory (`wellFormed`), and which of those the spec calls legal
(`legal`, R53, R55). A well-formed instruction need not be legal: an unrecognised mode digit and an immediate write target
are words a program can hold and execute, and executing them raises InvalidAddressingMode.
-/
namespace Sys2Proof

/-- A mode is one decimal digit: the digits 0, 1 and 2 have their own constructors, the others are 3 to 9 (R51). -/
def Mode.wellFormed : Mode → Bool
  | .position => true
  | .immediate => true
  | .relative => true
  | .unrecognized d => decide (3 ≤ d) && decide (d ≤ 9)

/-- Every parameter word is legal (R52), so only the mode is checked. -/
def Operand.wellFormed (p : Operand) : Bool := p.mode.wellFormed

/-- Every operand's mode is a decimal digit. -/
def Instr.wellFormed : Instr → Bool
  | .add a b c => a.wellFormed && b.wellFormed && c.wellFormed
  | .mul a b c => a.wellFormed && b.wellFormed && c.wellFormed
  | .inp a => a.wellFormed
  | .out a => a.wellFormed
  | .jt a b => a.wellFormed && b.wellFormed
  | .jf a b => a.wellFormed && b.wellFormed
  | .lt a b c => a.wellFormed && b.wellFormed && c.wellFormed
  | .eq a b c => a.wellFormed && b.wellFormed && c.wellFormed
  | .arb a => a.wellFormed
  | .hlt => true

/-- A read parameter accepts modes 0, 1 and 2 and a write target modes 0 and 2 (R53). -/
def Mode.legalFor : Mode → Role → Bool
  | .position, _ => true
  | .relative, _ => true
  | .immediate, .read => true
  | .immediate, .write => false
  | .unrecognized _, _ => false

/-- The legal combinations of modes (R53, the table after R55). -/
def Instr.legal : Instr → Bool
  | .add a b c => a.mode.legalFor .read && b.mode.legalFor .read && c.mode.legalFor .write
  | .mul a b c => a.mode.legalFor .read && b.mode.legalFor .read && c.mode.legalFor .write
  | .inp a => a.mode.legalFor .write
  | .out a => a.mode.legalFor .read
  | .jt a b => a.mode.legalFor .read && b.mode.legalFor .read
  | .jf a b => a.mode.legalFor .read && b.mode.legalFor .read
  | .lt a b c => a.mode.legalFor .read && b.mode.legalFor .read && c.mode.legalFor .write
  | .eq a b c => a.mode.legalFor .read && b.mode.legalFor .read && c.mode.legalFor .write
  | .arb a => a.mode.legalFor .read
  | .hlt => true

end Sys2Proof
end

