-- ==== Sys2Proof/Decode.lean ====
section
/-!
DEFINITION. The instruction decoder (R46 to R51, R62) and, after it, an encoder from the same tables (R55). Decoding is
total on any words: a negative word or an unlisted opcode is rejected as InvalidOpcode with the detail R101 gives it; a word
that is missing reads as 0, as unwritten memory does (R61, R63).
-/
namespace Sys2Proof

/-- `digit_k(w)` of R10: the decimal digit of weight 10^k. -/
def digit (k w : Nat) : Nat := w / 10 ^ k % 10

/-- `dec[hi:lo](w)` of R10: the number formed by the decimal digits `hi` down to `lo`. -/
def dec (hi lo w : Nat) : Nat := w / 10 ^ lo % 10 ^ (hi - lo + 1)

/-- The mode a mode digit names (R51). -/
def Mode.ofDigit : Nat → Mode
  | 0 => .position
  | 1 => .immediate
  | 2 => .relative
  | d => .unrecognized d

/-- The digit of a mode (R51). -/
def Mode.toDigit : Mode → Nat
  | .position => 0
  | .immediate => 1
  | .relative => 2
  | .unrecognized d => d

/-- The roles of a format's parameters, in order (R53). -/
def Format.roles : Format → List Role
  | .f0 => []
  | .f1w => [.write]
  | .f1r => [.read]
  | .f2r => [.read, .read]
  | .f3 => [.read, .read, .write]

/-- The format of an opcode (R53, R54). -/
def Opcode.format : Opcode → Format
  | .add => .f3
  | .mul => .f3
  | .inp => .f1w
  | .out => .f1r
  | .jt => .f2r
  | .jf => .f2r
  | .lt => .f3
  | .eq => .f3
  | .arb => .f1r
  | .hlt => .f0

/-- `nparams(op)`: how many parameters an opcode has (R54). -/
def Opcode.nparams (op : Opcode) : Nat := op.format.roles.length

/-- The length of an instruction in words (R46). -/
def Opcode.length (op : Opcode) : Nat := 1 + op.nparams

/-- The number of an opcode (R54). -/
def Opcode.number : Opcode → Nat
  | .add => 1
  | .mul => 2
  | .inp => 3
  | .out => 4
  | .jt => 5
  | .jf => 6
  | .lt => 7
  | .eq => 8
  | .arb => 9
  | .hlt => 99

/-- The opcode a number names, if it is recognised (R48). -/
def Opcode.ofNumber? : Nat → Option Opcode
  | 1 => some .add
  | 2 => some .mul
  | 3 => some .inp
  | 4 => some .out
  | 5 => some .jt
  | 6 => some .jf
  | 7 => some .lt
  | 8 => some .eq
  | 9 => some .arb
  | 99 => some .hlt
  | _ => none

/-- The mode digits of the parameters 1 to `n` of a word: parameter `k` has digit `k + 1` (R49). -/
def modeDigits (n w : Nat) : List Nat := (List.range n).map fun j => digit (j + 2) w

/-- `decode(w)` of R62: the opcode and the mode digits of its parameters, or the detail of InvalidOpcode. It reads nothing
but `w`, and it does not check the mode digits. -/
def decodeWord (w : Int) : Except Int (Opcode × List Nat) :=
  if w < 0 then .error w
  else
    match Opcode.ofNumber? (dec 1 0 w.toNat) with
    | none => .error (dec 1 0 w.toNat)
    | some op => .ok (op, modeDigits op.nparams w.toNat)

/-- The instruction with a given opcode whose parameter `k` is `p k` (R53). -/
def Instr.build (op : Opcode) (p : Nat → Operand) : Instr :=
  match op with
  | .add => .add (p 1) (p 2) (p 3)
  | .mul => .mul (p 1) (p 2) (p 3)
  | .inp => .inp (p 1)
  | .out => .out (p 1)
  | .jt => .jt (p 1) (p 2)
  | .jf => .jf (p 1) (p 2)
  | .lt => .lt (p 1) (p 2) (p 3)
  | .eq => .eq (p 1) (p 2) (p 3)
  | .arb => .arb (p 1)
  | .hlt => .hlt

/-- Parameter `k` of an instruction word with mode digits `ms` whose parameter words are `raw` (R49, R52). -/
def paramOf (ms : List Nat) (raw : Nat → Int) (k : Nat) : Operand :=
  { mode := Mode.ofDigit (ms.getD (k - 1) 0), raw := raw k }

/-- The instruction whose first word is `w` and whose word at offset `k` is `raw k` (R46, R62, R63). -/
def decodeWith (w : Int) (raw : Nat → Int) : Except Int Instr :=
  match decodeWord w with
  | .error d => .error d
  | .ok (op, ms) => .ok (Instr.build op (paramOf ms raw))

/-- The instruction at the head of a list of words; a word the list lacks is 0. -/
def decode (ws : List Int) : Except Int Instr := decodeWith (ws.getD 0 0) fun k => ws.getD k 0

/-- The opcode of an instruction. -/
def Instr.opcode : Instr → Opcode
  | .add _ _ _ => .add
  | .mul _ _ _ => .mul
  | .inp _ => .inp
  | .out _ => .out
  | .jt _ _ => .jt
  | .jf _ _ => .jf
  | .lt _ _ _ => .lt
  | .eq _ _ _ => .eq
  | .arb _ => .arb
  | .hlt => .hlt

/-- The parameters of an instruction, in order. -/
def Instr.operands : Instr → List Operand
  | .add a b c => [a, b, c]
  | .mul a b c => [a, b, c]
  | .inp a => [a]
  | .out a => [a]
  | .jt a b => [a, b]
  | .jf a b => [a, b]
  | .lt a b c => [a, b, c]
  | .eq a b c => [a, b, c]
  | .arb a => [a]
  | .hlt => []

/-- The number whose decimal digits, the units first, are the list. -/
def ofDigits : List Nat → Nat
  | [] => 0
  | m :: ms => m + 10 * ofDigits ms

/-- The canonical instruction word of R55: `op + 100*m_1 + 1000*m_2 + 10000*m_3`. -/
def encodeWord (op : Opcode) (ms : List Nat) : Int := ((op.number + 100 * ofDigits ms : Nat) : Int)

/-- The canonical words of an instruction: the instruction word, then the raw values in order (R46, R55, R58). -/
def encode (i : Instr) : List Int :=
  encodeWord i.opcode (i.operands.map fun p => p.mode.toDigit) :: i.operands.map fun p => p.raw

/-- The words `placed` and read for a table row: the first word is the number `w` cut to `nbits` bits, the parameter words
are 0. A word of this machine is an unbounded integer without bits (R10), so all of the table's bits lie in the first
word (DESIGN CHOICE, log entry 4). -/
def tableWords (nbits w : Nat) : List Int := [((w % 2 ^ nbits : Nat) : Int), 0, 0, 0]

/-- What the decoder reads from an instruction whose bits are `w` (log entry 4); none where it refuses. -/
def decodeTableWord (nbits w : Nat) : Option Instr :=
  match decode (tableWords nbits w) with
  | .ok i => some i
  | .error _ => none

end Sys2Proof
end

