-- ==== Sys2Proof/Machine/State.lean ====
section
/-!
DEFINITION. The architectural state (10_state.md R17 to R30), the reasons a step stops, and the state after reset. State is
plain data: the memory store is a list of address and word pairs in one canonical form (Machine/Ops.lean).
-/
namespace Sys2Proof.Machine

/-- The execution status (R21). Its numeric codes are `Status.code` in Machine/Flags.lean. -/
inductive Status where
  /-- `run` keeps stepping. -/
  | running
  /-- Paused at an IN whose input queue was empty. -/
  | awaitingInput
  /-- Terminal, the normal end. -/
  | halted
  /-- Terminal, the abnormal end, with a fault recorded. -/
  | faulted
deriving DecidableEq, Repr

/-- The fault kinds a step records (R23, R101). -/
inductive FaultKind where
  | invalidOpcode
  | invalidAddressingMode
  | invalidAddress
deriving DecidableEq, Repr

/-- The fault record of R23. -/
structure FaultRecord where
  kind : FaultKind
  code : Nat
  atIp : Nat
  word : Int
  param : Nat
  detail : Int
deriving DecidableEq, Repr

/-- The memory store (R24): the cells that do not hold 0, by strictly rising address. One cell is one whole integer:
R35 forbids a model to represent a word as bytes (log entry 1). -/
abbrev Memory := List (Nat × Int)

/-- The state tuple of R17. -/
structure State where
  /-- The instruction pointer (R18). -/
  ip : Nat
  /-- The relative base (R19). -/
  rb : Int
  /-- The execution status (R21). -/
  status : Status
  /-- The fault record (R23). -/
  fault : Option FaultRecord
  /-- The memory store (R24). -/
  mem : Memory
  /-- The input queue, its head first (R25). -/
  inq : List Int
  /-- The output queue, the first value emitted first (R26). -/
  outq : List Int
deriving DecidableEq, Repr

/-- Why a step of a finished machine stops with a fault. No instruction answers with one: a fault that an instruction raises
is a next state (R104). -/
inductive Fault where
  /-- Raised by `step` alone, on a machine whose status is Faulted: the recorded fault is answered again and nothing changes
  (R92, R106). Safe: nothing runs where the spec says nothing runs. -/
  | recorded (r : FaultRecord)
deriving DecidableEq, Repr

/-- Why a step is refused. No instruction answers with one. -/
inductive Refusal where
  /-- Raised by an arm of `exec` for an instruction that has no meaning yet. No arm does. Safe. -/
  | notModelled (mnemonic : String)
  /-- Raised by `step` alone, on a machine whose status is AwaitingInput or Halted (R92, decision D18), or which is Faulted
  without a record, a state no run reaches (R101, 93_implementation_defined.md I3, log entry 5). Nothing changes. Safe. -/
  | invalidState
deriving DecidableEq, Repr

/-- The machine right after reset: every element at the value of R30, for the empty program and the empty initial input
(log entry 3). -/
def State.reset : State where
  ip := Config.resetVector
  rb := 0
  status := .running
  fault := none
  mem := []
  inq := []
  outq := []

end Sys2Proof.Machine
end

