-- ==== Sys2Proof/Machine/Ops.lean ====
section
/-!
DEFINITION. The named operations over memory, registers, queues and status, and fault entry (R104), which is this machine's
only exception entry. There is no return from a fault (R106), so no operation leaves Faulted.
-/
namespace Sys2Proof.Machine

/-- What an address that was never written reads as (R24, R31). -/
abbrev unwrittenWord : Int := 0

/-- `mem[a]` (R31): the word of the cell, 0 where none is listed. -/
def Memory.read : Memory → Nat → Int
  | [], _ => unwrittenWord
  | (b, v) :: m, a => if a = b then v else Memory.read m a

/-- `mem[a] <- v` (R32). Writing the value an unlisted address reads as drops the entry (R33). -/
def Memory.write : Memory → Nat → Int → Memory
  | [], a, v => if v = unwrittenWord then [] else [(a, v)]
  | (b, w) :: m, a, v =>
    if a < b then (if v = unwrittenWord then (b, w) :: m else (a, v) :: (b, w) :: m)
    else if a = b then (if v = unwrittenWord then m else (a, v) :: m)
    else (b, w) :: Memory.write m a v

/-- The canonical form from an address on: addresses strictly rising and at least `lo`, no entry that holds 0. -/
def Memory.wfFrom : Nat → Memory → Bool
  | _, [] => true
  | lo, (a, v) :: m => decide (lo ≤ a) && decide (v ≠ unwrittenWord) && Memory.wfFrom (a + 1) m

/-- The canonical form: addresses strictly rising, no entry that holds 0 (R33). -/
def Memory.wf (m : Memory) : Bool := Memory.wfFrom 0 m

/-- The words `ws` stored from address `a` on. -/
def Memory.load (m : Memory) (a : Nat) : List Int → Memory
  | [] => m
  | w :: ws => Memory.load (Memory.write m a w) (a + 1) ws

/-- A failed check, before it is recorded (R14): the kind, the parameter and the detail of R101. -/
structure Raise where
  kind : FaultKind
  param : Nat
  detail : Int
deriving DecidableEq, Repr

/-- The number of a fault kind (R101, decision D23). -/
def FaultKind.code : FaultKind → Nat
  | .invalidOpcode => 1
  | .invalidAddressingMode => 2
  | .invalidAddress => 3

/-- The instruction word: the word at `ip` (R16, R61). -/
def State.instrWord (s : State) : Int := s.mem.read s.ip

/-- Fault entry (R104): the status and the fault record, nothing else. -/
def State.enterFault (s : State) (r : Raise) : State :=
  { s with
    status := .faulted
    fault := some
      { kind := r.kind, code := r.kind.code, atIp := s.ip, word := s.instrWord, param := r.param, detail := r.detail } }

/-- `MemWrite` to an address already checked (R32, R65). -/
def State.writeMem (s : State) (a : Nat) (v : Int) : State := { s with mem := s.mem.write a v }

/-- The default advance past an instruction of `n` parameters (R70). -/
def State.advance (s : State) (n : Nat) : State := { s with ip := s.ip + 1 + n }

/-- A taken jump to a checked target (R80, R81). -/
def State.jumpTo (s : State) (t : Nat) : State := { s with ip := t }

/-- The relative base adjusted by `v` (R85). -/
def State.addRb (s : State) (v : Int) : State := { s with rb := s.rb + v }

/-- The status set (R77, R86, R91). -/
def State.withStatus (s : State) (st : Status) : State := { s with status := st }

/-- The input queue set (R77, R91). -/
def State.withInq (s : State) (q : List Int) : State := { s with inq := q }

/-- A value appended to the output queue (R78). -/
def State.emit (s : State) (v : Int) : State := { s with outq := s.outq ++ [v] }

end Sys2Proof.Machine
end

