-- ==== Sys2Proof/Machine/Flags.lean ====
section
/-!
DEFINITION. The machine has no flags and no condition codes (R20). What stands here is the result of a comparison, which is
a word (R82), and the one status register's codes and legal transitions (R21, R22).
-/
namespace Sys2Proof.Machine

/-- The word a comparison writes: exactly 1 or 0 (R82). -/
def truthWord (b : Bool) : Int := if b then 1 else 0

/-- The numeric code of a status (R21, decision D23). -/
def Status.code : Status → Nat
  | .running => 0
  | .awaitingInput => 1
  | .halted => 2
  | .faulted => 3

/-- A status without an outgoing transition (R22). -/
def Status.terminal : Status → Bool
  | .running => false
  | .awaitingInput => false
  | .halted => true
  | .faulted => true

/-- The transitions of R22; a status that stays as it is makes none, but for Running, whose self-transition R22 lists. -/
def Status.legalNext : Status → Status → Bool
  | .running, _ => true
  | .awaitingInput, .running => true
  | _, _ => false

end Sys2Proof.Machine
end

