-- ==== Sys2Proof/Machine/Operands.lean ====
section
/-!
DEFINITION. The parameter resolver (R64 to R68): every operand form of the machine. A resolution answers a value or an
address, or the fault it raises, with the parameter's number `k`.
-/
namespace Sys2Proof.Machine

/-- `MemRead(addr, 1)` of R31, with the parameter on whose behalf it is made. -/
def State.readAddr (s : State) (k : Nat) (addr : Int) : Except Raise Int :=
  if addr < 0 then .error ⟨.invalidAddress, k, addr⟩ else .ok (s.mem.read addr.toNat)

/-- The address a write target names, checked before any write (R65). -/
def checkAddr (k : Nat) (addr : Int) : Except Raise Nat :=
  if addr < 0 then .error ⟨.invalidAddress, k, addr⟩ else .ok addr.toNat

/-- `ReadValue(m, raw, k)` of R64. -/
def State.readValue (s : State) (k : Nat) (p : Operand) : Except Raise Int :=
  match p.mode with
  | .position => s.readAddr k p.raw
  | .immediate => .ok p.raw
  | .relative => s.readAddr k (p.raw + s.rb)
  | .unrecognized d => .error ⟨.invalidAddressingMode, k, d⟩

/-- `EffAddr(m, raw, k)` of R65. -/
def State.effAddr (s : State) (k : Nat) (p : Operand) : Except Raise Nat :=
  match p.mode with
  | .position => checkAddr k p.raw
  | .immediate => .error ⟨.invalidAddressingMode, k, 1⟩
  | .relative => checkAddr k (p.raw + s.rb)
  | .unrecognized d => .error ⟨.invalidAddressingMode, k, d⟩

/-- What a step answers. -/
abbrev Answer := Host.Outcome State Fault Refusal

/-- Resolve read parameter `k`, then go on with its value; a raised fault ends the step with fault entry (R66, R104). -/
def State.withRead (s : State) (k : Nat) (p : Operand) (go : Int → Answer) : Answer :=
  match s.readValue k p with
  | .error r => .next (s.enterFault r)
  | .ok v => go v

/-- Resolve write target `k`, then go on with its address; a raised fault ends the step with fault entry (R66, R104). -/
def State.withTarget (s : State) (k : Nat) (p : Operand) (go : Nat → Answer) : Answer :=
  match s.effAddr k p with
  | .error r => .next (s.enterFault r)
  | .ok t => go t

/-- The shape of format F3: read `a` and `b`, resolve `c`, write `f a b` there, advance by 4 (R72, R75, R76, R83, R84). -/
def State.binary (s : State) (f : Int → Int → Int) (a b c : Operand) : Answer :=
  s.withRead 1 a fun x => s.withRead 2 b fun y => s.withTarget 3 c fun t => .next ((s.writeMem t (f x y)).advance 3)

/-- A jump whose condition is known: a taken jump checks its target, which is parameter 2 (R79 to R81). -/
def State.branch (s : State) (taken : Bool) (target : Int) : Answer :=
  if taken then
    if target < 0 then .next (s.enterFault ⟨.invalidAddress, 2, target⟩) else .next (s.jumpTo target.toNat)
  else .next (s.advance 2)

end Sys2Proof.Machine
end

