-- ==== Sys2Proof/Machine/Arithmetic.lean ====
section
/-!
DEFINITION. The arithmetic family, ADD and MUL (41_arithmetic.md). Arithmetic is exact in the integers (R74).
-/
namespace Sys2Proof.Machine

/-- ADD a, b, c: `c = a + b` (R75). -/
def execAdd (a b c : Operand) (s : State) : Answer := s.binary (fun x y => x + y) a b c

/-- MUL a, b, c: `c = a * b` (R76). -/
def execMul (a b c : Operand) (s : State) : Answer := s.binary (fun x y => x * y) a b c

end Sys2Proof.Machine
end

