-- ==== Sys2Proof/Machine/BaseHalt.lean ====
section
/-!
DEFINITION. The relative base and the halt, ARB and HLT (45_base_and_halt.md).
-/
namespace Sys2Proof.Machine

/-- ARB a: the relative base adjusted by `a`, which is resolved with the old base (R68, R85). -/
def execArb (a : Operand) (s : State) : Answer := s.withRead 1 a fun v => .next ((s.addRb v).advance 1)

/-- HLT: status Halted, with the default advance (R86, decision D15). -/
def execHlt (s : State) : Answer := .next ((s.withStatus .halted).advance 0)

end Sys2Proof.Machine
end

