-- ==== Sys2Proof/Machine/Compare.lean ====
section
/-!
DEFINITION. The comparison family, LT and EQ (44_compare.md): exact comparisons whose result is a word (R82).
-/
namespace Sys2Proof.Machine

/-- LT a, b, c: `c = 1` if `a < b`, else 0 (R83). -/
def execLt (a b c : Operand) (s : State) : Answer := s.binary (fun x y => truthWord (decide (x < y))) a b c

/-- EQ a, b, c: `c = 1` if `a = b`, else 0 (R84). -/
def execEq (a b c : Operand) (s : State) : Answer := s.binary (fun x y => truthWord (decide (x = y))) a b c

end Sys2Proof.Machine
end

