-- ==== Sys2Proof/Machine/Control.lean ====
section
/-!
DEFINITION. The control-transfer family, JT and JF (43_control_transfer.md). Both parameters are resolved whether or not the
jump is taken (R67).
-/
namespace Sys2Proof.Machine

/-- JT a, b: to `b` if `a` is not 0 (R80). -/
def execJt (a b : Operand) (s : State) : Answer :=
  s.withRead 1 a fun x => s.withRead 2 b fun y => s.branch (decide (x ≠ 0)) y

/-- JF a, b: to `b` if `a` is 0 (R81). -/
def execJf (a b : Operand) (s : State) : Answer :=
  s.withRead 1 a fun x => s.withRead 2 b fun y => s.branch (decide (x = 0)) y

end Sys2Proof.Machine
end

