-- ==== Sys2Proof/Machine/InputOutput.lean ====
section
/-!
DEFINITION. The input and output family, IN and OUT (42_io.md).
-/
namespace Sys2Proof.Machine

/-- IN a: the head of the input queue into memory, or the pause (R77). The target is resolved before the queue is tested
(decision D13). -/
def execInp (a : Operand) (s : State) : Answer :=
  s.withTarget 1 a fun t =>
    match s.inq with
    | [] => .next (s.withStatus .awaitingInput)
    | v :: q => .next (((s.withInq q).writeMem t v).advance 1)

/-- OUT a: one value appended to the output queue (R78). -/
def execOut (a : Operand) (s : State) : Answer := s.withRead 1 a fun v => .next ((s.emit v).advance 1)

end Sys2Proof.Machine
end

