-- ==== Sys2Proof/Machine/Cycle.lean ====
section
/-!
DEFINITION. The execution cycle (40_execution_cycle.md R60 to R72): fetching an instruction's words, the body of a step, and
what a step requested outside Running answers (R92). It also holds the placing of an instruction for the host.
-/
namespace Sys2Proof.Machine

/-- The instruction at `ip`, decoded afresh from memory (R28a, R61 to R63), or the detail of InvalidOpcode. Only the
parameter words the opcode has are read. -/
def State.fetch (s : State) : Except Int Instr := decodeWith s.instrWord fun k => s.mem.read (s.ip + k)

/-- The step body of R72. -/
def stepBody (s : State) : Answer :=
  match s.fetch with
  | .error d => .next (s.enterFault ⟨.invalidOpcode, 0, d⟩)
  | .ok i => exec i s

/-- A step as R60 and R92 define it: the step body while Running; the recorded fault once Faulted; InvalidState in
AwaitingInput and Halted. Outside Running nothing changes. -/
def stepAny (s : State) : Answer :=
  match s.status with
  | .running => stepBody s
  | .awaitingInput => .refused .invalidState
  | .halted => .refused .invalidState
  | .faulted =>
    match s.fault with
    | some r => .fault (.recorded r)
    | none => .refused .invalidState

/-- The words stored at `ip`, with the machine made ready to fetch them: Running, which by R29 has no fault recorded. -/
def State.placeAtIp (s : State) (ws : List Int) : State :=
  { s with mem := s.mem.load s.ip ws, status := .running, fault := none }

end Sys2Proof.Machine
end

