-- ==== Sys2Proof/Machine/Step.lean ====
section
/-!
DEFINITION. The machine's step (Machine/Cycle.lean holds what it does) and the placing of one instruction word for the host.
-/
namespace Sys2Proof.Machine

/-- One step (R60, R72, R92). -/
def step (s : State) : Host.Outcome State Fault Refusal := stepAny s

/-- `s` with the instruction of a table row stored where `step` fetches next, parameter words 0 (log entries 3 and 4). -/
def State.withFetchWord (s : State) (nbits w : Nat) : State := s.placeAtIp (tableWords nbits w)

end Sys2Proof.Machine
end

