-- ==== Sys2Proof/Machine/Assembler.lean ====
section
/-!
DEFINITION. The spec's assembly form and its two pseudo-instructions (R58, R59, decision D10): the lines of a program as
data, the two-pass assembler that turns them into words, and the reader that turns the text of R58 into lines. It is
notation only: the machine sees the words. What R58 leaves open of the spelling is fixed in log entry 7. Text is a list of
characters.
-/
namespace Sys2Proof

/-- The `n` of an operand form: a decimal integer or a label (R58). -/
inductive AsmValue where
  | number (n : Int)
  | label (name : List Char)
deriving DecidableEq, Repr

/-- The operand forms of R58. -/
inductive AsmOperand where
  /-- `[n]`. -/
  | position (n : AsmValue)
  /-- `#n`. -/
  | immediate (n : AsmValue)
  /-- `[rb+n]`. -/
  | relative (n : AsmValue)
  /-- `[rb-n]`: the raw value is `-n`. -/
  | relativeMinus (n : AsmValue)
deriving DecidableEq, Repr

/-- One item of a program: what a line holds (R58, R59). -/
inductive AsmItem where
  /-- `name:`, the address of the next word emitted. -/
  | label (name : List Char)
  /-- `MNEMONIC op1, op2, op3`. -/
  | instr (op : Opcode) (ps : List AsmOperand)
  /-- `.word v1, v2, ...`. R58 calls the values raw words and allows a label for the `n` of the operand forms; that a value
  here may be a label too is the model's choice (DESIGN CHOICE, log entry 7). -/
  | words (vs : List AsmValue)
  /-- `JMP t`, which expands to `JT #1, t`. -/
  | jmp (t : AsmOperand)
  /-- `MOV s, d`, which expands to `ADD s, #0, d`. -/
  | mov (s d : AsmOperand)
deriving DecidableEq, Repr

/-- The instruction a pseudo-instruction stands for (R59); every other item stands for itself. -/
def AsmItem.expand : AsmItem → AsmItem
  | .label name => .label name
  | .instr op ps => .instr op ps
  | .words vs => .words vs
  | .jmp t => .instr .jt [.immediate (.number 1), t]
  | .mov s d => .instr .add [s, .immediate (.number 0), d]

/-- How many words an item emits. -/
def AsmItem.size (x : AsmItem) : Nat :=
  match x.expand with
  | .label _ => 0
  | .instr op _ => op.length
  | .words vs => vs.length
  | .jmp _ => 0
  | .mov _ _ => 0

/-- The labels of a program that starts at address `a`, with their addresses (R58). -/
def asmLabels (a : Nat) : List AsmItem → List (List Char × Nat)
  | [] => []
  | .label name :: xs => (name, a) :: asmLabels a xs
  | x :: xs => asmLabels (a + x.size) xs

/-- The integer a value stands for. DESIGN CHOICE (log entry 7), where R58 is silent: none for a label that the program does
not define or defines more than once. A label defined more than once is refused only here, where a value uses it; a program
that defines it and never uses it is accepted. -/
def AsmValue.resolve (labels : List (List Char × Nat)) : AsmValue → Option Int
  | .number n => some n
  | .label name =>
    match labels.filter fun l => l.1 == name with
    | [l] => some (l.2 : Int)
    | _ => none

/-- The operand a form stands for (R58). -/
def AsmOperand.resolve (labels : List (List Char × Nat)) : AsmOperand → Option Operand
  | .position n => (n.resolve labels).map fun v => { mode := .position, raw := v }
  | .immediate n => (n.resolve labels).map fun v => { mode := .immediate, raw := v }
  | .relative n => (n.resolve labels).map fun v => { mode := .relative, raw := v }
  | .relativeMinus n => (n.resolve labels).map fun v => { mode := .relative, raw := -v }

/-- All of a list's answers, or none. -/
def allSome {α : Type} : List (Option α) → Option (List α)
  | [] => some []
  | none :: _ => none
  | some x :: xs => (allSome xs).map fun ys => x :: ys

/-- The words an item emits: the canonical encoding of R55 and the raw values (R58). DESIGN CHOICE (log entry 7): a `.word`
value may be a label, which emits its address; the answer is none where a label does not resolve or an opcode has not the
right number of operands. -/
def AsmItem.emit (labels : List (List Char × Nat)) (x : AsmItem) : Option (List Int) :=
  match x.expand with
  | .label _ => some []
  | .words vs => allSome (vs.map (AsmValue.resolve labels))
  | .instr op ps =>
    match allSome (ps.map (AsmOperand.resolve labels)) with
    | none => none
    | some qs =>
      if qs.length = op.nparams then
        some (encode (Instr.build op fun k => qs.getD (k - 1) { mode := .position, raw := 0 }))
      else none
  | .jmp _ => none
  | .mov _ _ => none

/-- The words of a program, which starts at address 0 (R58, R89). -/
def assemble (xs : List AsmItem) : Option (List Int) :=
  (allSome (xs.map (AsmItem.emit (asmLabels 0 xs)))).map List.flatten

/-- The mnemonic of an opcode (R54). -/
def Opcode.mnemonic : Opcode → List Char
  | .add => ['A', 'D', 'D']
  | .mul => ['M', 'U', 'L']
  | .inp => ['I', 'N']
  | .out => ['O', 'U', 'T']
  | .jt => ['J', 'T']
  | .jf => ['J', 'F']
  | .lt => ['L', 'T']
  | .eq => ['E', 'Q']
  | .arb => ['A', 'R', 'B']
  | .hlt => ['H', 'L', 'T']

/-- The opcodes in the order of the opcode map (R54). -/
def allOpcodes : List Opcode := [.add, .mul, .inp, .out, .jt, .jf, .lt, .eq, .arb, .hlt]

/-- A blank of a line. -/
def isBlank (c : Char) : Bool := c == ' ' || c == '\t'

/-- A character of a label (log entry 7). -/
def isLabelChar (c : Char) : Bool :=
  (decide ('a' ≤ c) && decide (c ≤ 'z')) || (decide ('A' ≤ c) && decide (c ≤ 'Z')) ||
    (decide ('0' ≤ c) && decide (c ≤ '9')) || c == '_'

/-- A text without the blanks at its ends. -/
def trimBlanks (cs : List Char) : List Char :=
  ((cs.dropWhile isBlank).reverse.dropWhile isBlank).reverse

/-- A text cut at every `c`. -/
def splitAtChar (c : Char) : List Char → List (List Char)
  | [] => [[]]
  | x :: xs =>
    if x = c then [] :: splitAtChar c xs
    else
      match splitAtChar c xs with
      | [] => [[x]]
      | y :: ys => (x :: y) :: ys

/-- The number whose decimal digits a text holds, after the digits read so far. -/
def readNat (acc : Nat) : List Char → Option Nat
  | [] => some acc
  | c :: cs => if decide ('0' ≤ c) && decide (c ≤ '9') then readNat (acc * 10 + (c.toNat - 48)) cs else none

/-- A decimal integer or a label (R58). -/
def readValueText (cs : List Char) : Option AsmValue :=
  match cs with
  | [] => none
  | '-' :: [] => none
  | '-' :: ds => (readNat 0 ds).map fun n => .number (-(n : Int))
  | _ =>
    match readNat 0 cs with
    | some n => some (.number n)
    | none => if cs.all isLabelChar then some (.label cs) else none

/-- An operand form of R58. -/
def readOperandText (cs : List Char) : Option AsmOperand :=
  match cs with
  | '#' :: rest => (readValueText rest).map AsmOperand.immediate
  | '[' :: rest =>
    match rest.reverse with
    | ']' :: inner =>
      match inner.reverse with
      | 'r' :: 'b' :: '+' :: n => (readValueText n).map AsmOperand.relative
      | 'r' :: 'b' :: '-' :: n => (readValueText n).map AsmOperand.relativeMinus
      | n => (readValueText n).map AsmOperand.position
    | _ => none
  | _ => none

/-- The operands after a mnemonic, cut at the commas; no operand where nothing is left. -/
def readList {α : Type} (f : List Char → Option α) (cs : List Char) : Option (List α) :=
  match trimBlanks cs with
  | [] => some []
  | text => allSome ((splitAtChar ',' text).map fun part => f (trimBlanks part))

/-- What a line holds after its label. -/
def readStatement (cs : List Char) : Option (List AsmItem) :=
  match trimBlanks cs with
  | [] => some []
  | text =>
    let head := text.takeWhile fun c => !isBlank c
    let rest := text.dropWhile fun c => !isBlank c
    if head = ['.', 'w', 'o', 'r', 'd'] then (readList readValueText rest).map fun vs => [.words vs]
    else
      match readList readOperandText rest with
      | none => none
      | some ps =>
        if head = ['J', 'M', 'P'] then
          match ps with
          | [t] => some [.jmp t]
          | _ => none
        else if head = ['M', 'O', 'V'] then
          match ps with
          | [s, d] => some [.mov s d]
          | _ => none
        else
          match allOpcodes.find? fun op => op.mnemonic == head with
          | none => none
          | some op => some [.instr op ps]

/-- One line: an optional label, an optional statement, an optional comment (R58). -/
def readLine (line : List Char) : Option (List AsmItem) :=
  let text := trimBlanks (line.takeWhile fun c => !(c == ';'))
  let name := text.takeWhile isLabelChar
  match name, text.dropWhile isLabelChar with
  | _ :: _, ':' :: rest => (readStatement rest).map fun xs => .label name :: xs
  | _, _ => readStatement text

/-- The items of a text, one line after another (R58). -/
def readProgram (text : List Char) : Option (List AsmItem) :=
  (allSome ((splitAtChar '\n' text).map readLine)).map List.flatten

/-- The words a text of R58 assembles to. -/
def assembleText (text : List Char) : Option (List Int) :=
  match readProgram text with
  | none => none
  | some xs => assemble xs

end Sys2Proof
end

