-- ==== Sys2Proof/Machine/HostOps.lean ====
section
/-!
DEFINITION. The host interface (46_host_interface.md R87 to R99): construction and the atomic host operations, each a request
with a response and the state after it. `run` may not return (R97, R119), so it takes a number of steps as fuel (R118) and
answers none where that does not suffice. At the end stand many independent instances (R39, R111).
-/
namespace Sys2Proof.Machine

/-- The errors the host interface returns and never records (R88, R101). -/
inductive HostError where
  | invalidState
  | invalidAddress
deriving DecidableEq, Repr

/-- The number of a host-level error (R101). -/
def HostError.code : HostError → Nat
  | .invalidState => 4
  | .invalidAddress => 3

/-- What a host operation returns. -/
inductive Response where
  /-- `run`, `resume`, `step` and `status`: the status (R90 to R93). -/
  | status (st : Status)
  /-- `run`, `resume` and `step`: the fault record (R90 to R92). -/
  | fault (r : FaultRecord)
  /-- An error that changes no state (R88). -/
  | error (e : HostError)
  /-- `outputs` (R94). -/
  | outputs (q : List Int)
  /-- `peek` (R95). -/
  | value (v : Int)
  /-- `poke` that succeeded (R96). -/
  | done
deriving DecidableEq, Repr

/-- `new(program, initial_input)` of R89, the only reset (R114). -/
def State.construct (program initialInput : List Int) : State :=
  { State.reset with mem := Memory.load [] 0 program, inq := initialInput }

/-- What `run`, `resume` and `step` return of a state: the fault record once Faulted, else the status (R90, R92). A Faulted
state without a record is reached by no run and answers InvalidState (R101, log entry 5). -/
def State.report (s : State) : Response :=
  match s.status with
  | .running => .status .running
  | .awaitingInput => .status .awaitingInput
  | .halted => .status .halted
  | .faulted =>
    match s.fault with
    | some r => .fault r
    | none => .error .invalidState

/-- `step()` of R92. -/
def hostStep (s : State) : Response × State :=
  match step s with
  | .next t => (t.report, t)
  | .fault (.recorded r) => (.fault r, s)
  | .refused _ => (.error .invalidState, s)

/-- `run()` of R90 with fuel for some number of steps: none where it has not returned after them. -/
def hostRun : Nat → State → Option (Response × State)
  | 0, s => if s.status = .running then none else some (s.report, s)
  | n + 1, s => if s.status = .running then hostRun n (hostStep s).2 else some (s.report, s)

/-- What `resume(values)` changes before it runs: the values are appended and a paused machine is Running again (R91). -/
def State.supply (s : State) (values : List Int) : State :=
  { s with
    inq := s.inq ++ values
    status := if s.status = .awaitingInput then .running else s.status }

/-- `resume(values)` of R91, with fuel as `hostRun`. -/
def hostResume (fuel : Nat) (values : List Int) (s : State) : Option (Response × State) :=
  match s.status with
  | .halted => some (.error .invalidState, s)
  | .faulted => some (s.report, s)
  | .running => hostRun fuel (s.supply values)
  | .awaitingInput => hostRun fuel (s.supply values)

/-- `status()` of R93. -/
def hostStatus (s : State) : Response × State := (.status s.status, s)

/-- `outputs()` of R94. -/
def hostOutputs (s : State) : Response × State := (.outputs s.outq, s)

/-- `peek(address)` of R95. -/
def hostPeek (address : Int) (s : State) : Response × State :=
  if address < 0 then (.error .invalidAddress, s) else (.value (s.mem.read address.toNat), s)

/-- `poke(address, value)` of R96. -/
def hostPoke (address value : Int) (s : State) : Response × State :=
  if address < 0 then (.error .invalidAddress, s) else (.done, s.writeMem address.toNat value)

/-- A request of the host to an instance (R7, R98). -/
inductive Request where
  | run
  | resume (values : List Int)
  | step
  | status
  | outputs
  | peek (address : Int)
  | poke (address value : Int)
deriving DecidableEq, Repr

/-- One host operation, atomic (R87): the response and the state after it, none where `run` or `resume` has not returned
within the fuel. -/
def serve (fuel : Nat) (q : Request) (s : State) : Option (Response × State) :=
  match q with
  | .run => hostRun fuel s
  | .resume values => hostResume fuel values s
  | .step => some (hostStep s)
  | .status => some (hostStatus s)
  | .outputs => some (hostOutputs s)
  | .peek address => some (hostPeek address s)
  | .poke address value => some (hostPoke address value s)

/-- The instances a host has constructed, the first constructed first (R39, R111). -/
abbrev Instances := List State

/-- Constructing one more instance (R89). -/
def constructInstance (program initialInput : List Int) (xs : Instances) : Instances :=
  xs ++ [State.construct program initialInput]

/-- One operation on instance `j` and on no other (R39, R87, R111); none where there is no such instance, or where the
operation has not returned within the fuel. -/
def serveAt (fuel j : Nat) (q : Request) : Instances → Option (Response × Instances)
  | [] => none
  | s :: xs =>
    match j with
    | 0 =>
      match serve fuel q s with
      | none => none
      | some (r, t) => some (r, t :: xs)
    | j' + 1 =>
      match serveAt fuel j' q xs with
      | none => none
      | some (r, ys) => some (r, s :: ys)

end Sys2Proof.Machine
end

