-- ==== Sys2Proof/Safety.lean ====
section
/-!
DEFINITION. What a sound state is (R29) and which states the machine can come to (R87, R97), in the terms the claims use.
-/
namespace Sys2Proof.Machine

/-- A fault record that fault entry can have written and that nothing has changed since (R23, R104): its code is its
kind's, it names the `ip` the machine still holds, its parameter is 0 exactly for InvalidOpcode, and no instruction has more
than 3 parameters. -/
abbrev FaultRecord.Sound (r : FaultRecord) (ip : Nat) : Prop :=
  r.code = r.kind.code ∧ r.atIp = ip ∧ (r.param = 0 ↔ r.kind = .invalidOpcode) ∧ r.param ≤ 3

/-- The invariant of the machine: the memory is in canonical form (R33), a fault is recorded exactly in Faulted (R23, R29),
and a recorded fault is sound. -/
abbrev State.Inv (s : State) : Prop :=
  s.mem.wf = true ∧ (s.fault = none ↔ s.status ≠ .faulted) ∧ ∀ r ∈ s.fault, r.Sound s.ip

/-- One change of an instance's state (R87): a step of the core, or what a host operation changes by itself. Every `run`
and `resume` is a sequence of these. -/
inductive Move : State → State → Prop where
  /-- A step while Running (R72). -/
  | step (s t : State) : Machine.step s = .next t → Move s t
  /-- What `resume` changes before it runs, in a status in which it does not fail (R91). -/
  | supply (s : State) (values : List Int) : s.status.terminal = false → Move s (s.supply values)
  /-- A `poke` of a valid address (R96). -/
  | poke (s : State) (a : Nat) (v : Int) : Move s (s.writeMem a v)

/-- The states an instance can come to: construction, then moves (R89, R97). -/
inductive Reachable : State → Prop where
  | construct (program initialInput : List Int) : Reachable (State.construct program initialInput)
  | move (s t : State) : Reachable s → Move s t → Reachable t

/-- The parameters of an instruction with their roles, in order (R53). -/
def instrParams (i : Instr) : List (Role × Operand) := i.opcode.format.roles.zip i.operands

/-- The fault that resolving parameter `k` raises, if it raises one (R64, R65). -/
def State.raiseOf (s : State) (k : Nat) : Role × Operand → Option Raise
  | (.read, p) =>
    match s.readValue k p with
    | .error r => some r
    | .ok _ => none
  | (.write, p) =>
    match s.effAddr k p with
    | .error r => some r
    | .ok _ => none

/-- The first fault that resolving parameters `k`, `k + 1`, ... in ascending order raises (R66). -/
def State.firstRaise (s : State) (k : Nat) : List (Role × Operand) → Option Raise
  | [] => none
  | p :: ps =>
    match s.raiseOf k p with
    | some r => some r
    | none => s.firstRaise (k + 1) ps

/-- The address a position-mode or relative-mode parameter names (R16, R64, R65). -/
def State.addressOf (s : State) (p : Operand) : Int :=
  match p.mode with
  | .relative => p.raw + s.rb
  | .position => p.raw
  | .immediate => p.raw
  | .unrecognized _ => p.raw

/-- The value of a read parameter that resolves (R64). -/
def State.valueOf (s : State) (p : Operand) : Int :=
  match p.mode with
  | .immediate => p.raw
  | .position => s.mem.read (s.addressOf p).toNat
  | .relative => s.mem.read (s.addressOf p).toNat
  | .unrecognized _ => p.raw

/-- When a read parameter resolves: its mode is 0, 1 or 2, and the address it names, if it names one, is not negative
(R53, R64). -/
abbrev State.CanRead (s : State) (p : Operand) : Prop :=
  p.mode.legalFor .read = true ∧ (p.mode ≠ .immediate → 0 ≤ s.addressOf p)

/-- When a write target resolves: its mode is 0 or 2 and its address is not negative (R53, R65). -/
abbrev State.CanWrite (s : State) (p : Operand) : Prop := p.mode.legalFor .write = true ∧ 0 ≤ s.addressOf p

end Sys2Proof.Machine
end

