-- ==== Sys2Proof/Certificates/Slice0/Obligations.lean ====
section
/-!
DEFINITION. The statements for the provers. Each docstring names the rule of spec/ it formalises. Where a rule is marked in
spec/ as the spec's own decision (D<n> of 92_eei_decisions.md), the docstring says so. `s.enterFault r` is fault entry with
the failed check `r`; `FaultsArePrecise` says field by field what it is.
-/

open Sys2Proof Sys2Proof.Machine

/-! Encoding -/

/-- 30_encoding.md section 5, the canonical encoding: decoding the canonical words of a well-formed instruction gives the
instruction back, with every mode digit and every raw value. -/
def Obligations.DecodeOfEncodeIsTheInstruction : Prop :=
  ∀ i : Instr, i.wellFormed = true → decode (encode i) = .ok i

/-- R62 with R48 and R49: what decoding a word answers, by its decimal digits. A negative word is InvalidOpcode by the spec's
own decision D8. -/
def Obligations.DecodeWordFollowsTheDigits : Prop :=
  ∀ w : Int,
    (w < 0 → decodeWord w = .error w) ∧
    (0 ≤ w → w % 100 ∉ ([1, 2, 3, 4, 5, 6, 7, 8, 9, 99] : List Int) → decodeWord w = .error (w % 100)) ∧
    ∀ op num n, (op, num, n) ∈
        ([(.add, 1, 3), (.mul, 2, 3), (.inp, 3, 1), (.out, 4, 1), (.jt, 5, 2), (.jf, 6, 2), (.lt, 7, 3), (.eq, 8, 3),
          (.arb, 9, 1), (.hlt, 99, 0)] : List (Opcode × Int × Nat)) →
      0 ≤ w → w % 100 = num →
      ∃ ms : List Nat, decodeWord w = .ok (op, ms) ∧ ms.length = n ∧
        ∀ k, 1 ≤ k → k ≤ n → ms[k - 1]?.map Int.ofNat = some (w / 10 ^ (k + 1) % 10)

/-- R50 (the spec's own decision D9): mode digits of parameters the opcode does not have are not examined. Two words with the
same opcode and the same mode digits of the opcode's parameters decode to the same instruction. -/
def Obligations.UnusedDigitsAreNotExamined : Prop :=
  ∀ (op : Opcode) (w w' : Int) (raw : Nat → Int), 0 ≤ w → 0 ≤ w' → w % 100 = op.number →
    w % 10 ^ (op.nparams + 2) = w' % 10 ^ (op.nparams + 2) → decodeWith w raw = decodeWith w' raw

/-- 30_encoding.md sections 2 and 5: an instruction that was decoded is well-formed, and its canonical words are the words it
was decoded from, but for the digits that are not examined. -/
def Obligations.DecodedWordsAreCanonicalUpToUnusedDigits : Prop :=
  ∀ (ws : List Int) (i : Instr), decode ws = .ok i →
    i.wellFormed = true ∧ 0 ≤ ws.getD 0 0 ∧
      (encode i).getD 0 0 = ws.getD 0 0 % 10 ^ (i.opcode.nparams + 2) ∧
      ∀ k, 1 ≤ k → k ≤ i.opcode.nparams → (encode i).getD k 0 = ws.getD k 0

/-- 30_encoding.md sections 2 and 5 and the worked words of 95_test_vectors.md: words of every family decode to the
instructions they stand for. -/
def Obligations.SampleWordsDecode : Prop :=
  decode [1002, 4, 3, 4] = .ok (.mul ⟨.position, 4⟩ ⟨.immediate, 3⟩ ⟨.position, 4⟩) ∧
  decode [21101, 5, 6, 0] = .ok (.add ⟨.immediate, 5⟩ ⟨.immediate, 6⟩ ⟨.relative, 0⟩) ∧
  decode [203, -3] = .ok (.inp ⟨.relative, -3⟩) ∧
  decode [30104, -5] = .ok (.out ⟨.immediate, -5⟩) ∧
  decode [1005, 3, -1] = .ok (.jt ⟨.position, 3⟩ ⟨.immediate, -1⟩) ∧
  decode [1106, 0, 12] = .ok (.jf ⟨.immediate, 0⟩ ⟨.immediate, 12⟩) ∧
  decode [1107, -1, 0, 5] = .ok (.lt ⟨.immediate, -1⟩ ⟨.immediate, 0⟩ ⟨.position, 5⟩) ∧
  decode [90008, 1, 2, 3] = .ok (.eq ⟨.position, 1⟩ ⟨.position, 2⟩ ⟨.unrecognized 9, 3⟩) ∧
  decode [209, 1] = .ok (.arb ⟨.relative, 1⟩) ∧
  decode [20099] = .ok .hlt ∧
  decode [-1] = .error (-1) ∧
  decode [100] = .error 0

/-! The step -/

/-- 40_execution_cycle.md section 3, the complete step: while Running, when the words at `ip` decode to an instruction, a
step is exec of that instruction at that state, with nothing around it. -/
def Obligations.StepRunsTheDecodedInstruction : Prop :=
  ∀ (s : State) (i : Instr), s.status = .running →
    decode [s.mem.read s.ip, s.mem.read (s.ip + 1), s.mem.read (s.ip + 2), s.mem.read (s.ip + 3)] = .ok i →
    step s = exec i s

/-- 40_execution_cycle.md section 3 and 30_encoding.md section 5: when the canonical words of a well-formed instruction stand
at `ip`, a step runs it. -/
def Obligations.StepRunsTheEncodedInstruction : Prop :=
  ∀ (s : State) (i : Instr), s.status = .running → i.wellFormed = true →
    (∀ k, k < (encode i).length → s.mem.read (s.ip + k) = (encode i).getD k 0) → step s = exec i s

/-- R48: a fetched word with an unlisted opcode raises InvalidOpcode with the opcode as detail. A negative word raises it with
the word as detail, by the spec's own decision D8. -/
def Obligations.UnknownOpcodeFaults : Prop :=
  ∀ s : State, s.status = .running →
    (0 ≤ s.mem.read s.ip → s.mem.read s.ip % 100 ∉ ([1, 2, 3, 4, 5, 6, 7, 8, 9, 99] : List Int) →
      step s = .next { s with
        status := .faulted
        fault := some
          { kind := .invalidOpcode, code := 1, atIp := s.ip, word := s.mem.read s.ip, param := 0,
            detail := s.mem.read s.ip % 100 } }) ∧
    (s.mem.read s.ip < 0 →
      step s = .next { s with
        status := .faulted
        fault := some
          { kind := .invalidOpcode, code := 1, atIp := s.ip, word := s.mem.read s.ip, param := 0,
            detail := s.mem.read s.ip } })

/-- 40_execution_cycle.md section 1 and 70_reset_and_hazards.md section 3 ("A step always finishes"): while Running a step
answers a next state. -/
def Obligations.RunningStepAnswersANextState : Prop :=
  ∀ s : State, s.status = .running → ∃ t, step s = .next t

/-- R92 (the spec's own decisions D18 and D22): the host's single step, in every status. -/
def Obligations.HostStepInEveryStatus : Prop :=
  ∀ s : State,
    (∀ t, s.status = .running → stepBody s = .next t →
      (t.status ≠ .faulted → hostStep s = (.status t.status, t)) ∧
      ∀ r, t.status = .faulted → t.fault = some r → hostStep s = (.fault r, t)) ∧
    (∀ r, s.status = .faulted → s.fault = some r → hostStep s = (.fault r, s)) ∧
    (s.status = .awaitingInput ∨ s.status = .halted → hostStep s = (.error .invalidState, s))

/-- R71 and R104 (the spec's own decision D21): a step that faults changes the status and the fault record and nothing else;
the record names the instruction's address and word and the number of its kind, and the host's step returns it. -/
def Obligations.FaultsArePrecise : Prop :=
  ∀ s t : State, step s = .next t → t.status = .faulted →
    ∃ r : FaultRecord, t = { s with status := .faulted, fault := some r } ∧
      r.atIp = s.ip ∧ r.word = s.mem.read s.ip ∧
      ((r.kind = .invalidOpcode ∧ r.code = 1) ∨ (r.kind = .invalidAddressingMode ∧ r.code = 2) ∨
        (r.kind = .invalidAddress ∧ r.code = 3)) ∧
      hostStep s = (.fault r, t)

/-! Parameters -/

/-- R64: the value of a read parameter in every mode, and the faults of its resolution. -/
def Obligations.ReadParameterInEveryMode : Prop :=
  ∀ (s : State) (k : Nat) (raw : Int),
    (0 ≤ raw → s.readValue k ⟨.position, raw⟩ = .ok (s.mem.read raw.toNat)) ∧
    (raw < 0 → s.readValue k ⟨.position, raw⟩ = .error ⟨.invalidAddress, k, raw⟩) ∧
    s.readValue k ⟨.immediate, raw⟩ = .ok raw ∧
    (0 ≤ raw + s.rb → s.readValue k ⟨.relative, raw⟩ = .ok (s.mem.read (raw + s.rb).toNat)) ∧
    (raw + s.rb < 0 → s.readValue k ⟨.relative, raw⟩ = .error ⟨.invalidAddress, k, raw + s.rb⟩) ∧
    ∀ d : Nat, s.readValue k ⟨.unrecognized d, raw⟩ = .error ⟨.invalidAddressingMode, k, d⟩

/-- R65: the address of a write target in every mode, and the faults of its resolution. -/
def Obligations.WriteTargetInEveryMode : Prop :=
  ∀ (s : State) (k : Nat) (raw : Int),
    (0 ≤ raw → s.effAddr k ⟨.position, raw⟩ = .ok raw.toNat) ∧
    (raw < 0 → s.effAddr k ⟨.position, raw⟩ = .error ⟨.invalidAddress, k, raw⟩) ∧
    s.effAddr k ⟨.immediate, raw⟩ = .error ⟨.invalidAddressingMode, k, 1⟩ ∧
    (0 ≤ raw + s.rb → s.effAddr k ⟨.relative, raw⟩ = .ok (raw + s.rb).toNat) ∧
    (raw + s.rb < 0 → s.effAddr k ⟨.relative, raw⟩ = .error ⟨.invalidAddress, k, raw + s.rb⟩) ∧
    ∀ d : Nat, s.effAddr k ⟨.unrecognized d, raw⟩ = .error ⟨.invalidAddressingMode, k, d⟩

/-- R66 (the spec's own decision D11): parameters are resolved in ascending order and the first fault raised is the one
reported; where none is raised, the only fault left is the negative target of a taken jump. -/
def Obligations.FirstFaultIsReported : Prop :=
  ∀ (i : Instr) (s : State),
    (∀ r, s.firstRaise 1 (instrParams i) = some r → exec i s = .next (s.enterFault r)) ∧
    (s.firstRaise 1 (instrParams i) = none → s.status ≠ .faulted → ∀ t, exec i s = .next t → t.status = .faulted →
      ∃ a b x y, ((i = .jt a b ∧ x ≠ 0) ∨ (i = .jf a b ∧ x = 0)) ∧ s.readValue 1 a = .ok x ∧
        s.readValue 2 b = .ok y ∧ y < 0 ∧ t = s.enterFault ⟨.invalidAddress, 2, y⟩)

/-- 30_encoding.md sections 4 and 6 and 60_exceptions.md section 1, the faults each opcode can raise: an instruction with an
illegal mode always faults, by its mode or by an earlier address; a legal one can only raise InvalidAddress, with a negative
detail. -/
def Obligations.IllegalModesAlwaysFault : Prop :=
  ∀ (i : Instr) (s t : State), exec i s = .next t →
    (i.legal = false → ∃ r : Raise, t = s.enterFault r ∧ r.kind ≠ .invalidOpcode) ∧
    (i.legal = true → s.status ≠ .faulted → t.status = .faulted →
      ∃ r : Raise, t = s.enterFault r ∧ r.kind = .invalidAddress ∧ r.detail < 0)

/-! The instructions, one statement each: the encoding, the next state where every parameter resolves, and fault entry where
one does not -/

/-- R75: ADD. -/
def Obligations.AddWritesTheSum : Prop :=
  ∀ (s : State) (a b c : Operand),
    encode (.add a b c) = [1 + 100 * (a.mode.toDigit : Int) + 1000 * b.mode.toDigit + 10000 * c.mode.toDigit,
      a.raw, b.raw, c.raw] ∧
    (∀ x y t, s.readValue 1 a = .ok x → s.readValue 2 b = .ok y → s.effAddr 3 c = .ok t →
      exec (.add a b c) s = .next { s with mem := s.mem.write t (x + y), ip := s.ip + 4 }) ∧
    (∀ r, s.readValue 1 a = .error r → exec (.add a b c) s = .next (s.enterFault r)) ∧
    (∀ x r, s.readValue 1 a = .ok x → s.readValue 2 b = .error r → exec (.add a b c) s = .next (s.enterFault r)) ∧
    (∀ x y r, s.readValue 1 a = .ok x → s.readValue 2 b = .ok y → s.effAddr 3 c = .error r →
      exec (.add a b c) s = .next (s.enterFault r))

/-- R76: MUL. -/
def Obligations.MulWritesTheProduct : Prop :=
  ∀ (s : State) (a b c : Operand),
    encode (.mul a b c) = [2 + 100 * (a.mode.toDigit : Int) + 1000 * b.mode.toDigit + 10000 * c.mode.toDigit,
      a.raw, b.raw, c.raw] ∧
    (∀ x y t, s.readValue 1 a = .ok x → s.readValue 2 b = .ok y → s.effAddr 3 c = .ok t →
      exec (.mul a b c) s = .next { s with mem := s.mem.write t (x * y), ip := s.ip + 4 }) ∧
    (∀ r, s.readValue 1 a = .error r → exec (.mul a b c) s = .next (s.enterFault r)) ∧
    (∀ x r, s.readValue 1 a = .ok x → s.readValue 2 b = .error r → exec (.mul a b c) s = .next (s.enterFault r)) ∧
    (∀ x y r, s.readValue 1 a = .ok x → s.readValue 2 b = .ok y → s.effAddr 3 c = .error r →
      exec (.mul a b c) s = .next (s.enterFault r))

/-- R83: LT. -/
def Obligations.LtWritesTheComparison : Prop :=
  ∀ (s : State) (a b c : Operand),
    encode (.lt a b c) = [7 + 100 * (a.mode.toDigit : Int) + 1000 * b.mode.toDigit + 10000 * c.mode.toDigit,
      a.raw, b.raw, c.raw] ∧
    (∀ x y t, s.readValue 1 a = .ok x → s.readValue 2 b = .ok y → s.effAddr 3 c = .ok t →
      exec (.lt a b c) s = .next { s with mem := s.mem.write t (if x < y then 1 else 0), ip := s.ip + 4 }) ∧
    (∀ r, s.readValue 1 a = .error r → exec (.lt a b c) s = .next (s.enterFault r)) ∧
    (∀ x r, s.readValue 1 a = .ok x → s.readValue 2 b = .error r → exec (.lt a b c) s = .next (s.enterFault r)) ∧
    (∀ x y r, s.readValue 1 a = .ok x → s.readValue 2 b = .ok y → s.effAddr 3 c = .error r →
      exec (.lt a b c) s = .next (s.enterFault r))

/-- R84: EQ. -/
def Obligations.EqWritesTheComparison : Prop :=
  ∀ (s : State) (a b c : Operand),
    encode (.eq a b c) = [8 + 100 * (a.mode.toDigit : Int) + 1000 * b.mode.toDigit + 10000 * c.mode.toDigit,
      a.raw, b.raw, c.raw] ∧
    (∀ x y t, s.readValue 1 a = .ok x → s.readValue 2 b = .ok y → s.effAddr 3 c = .ok t →
      exec (.eq a b c) s = .next { s with mem := s.mem.write t (if x = y then 1 else 0), ip := s.ip + 4 }) ∧
    (∀ r, s.readValue 1 a = .error r → exec (.eq a b c) s = .next (s.enterFault r)) ∧
    (∀ x r, s.readValue 1 a = .ok x → s.readValue 2 b = .error r → exec (.eq a b c) s = .next (s.enterFault r)) ∧
    (∀ x y r, s.readValue 1 a = .ok x → s.readValue 2 b = .ok y → s.effAddr 3 c = .error r →
      exec (.eq a b c) s = .next (s.enterFault r))

/-- R77 (resolving the target before the queue is tested is the spec's own decision D13): IN, with a value and without one. -/
def Obligations.InReadsTheHeadOrPauses : Prop :=
  ∀ (s : State) (a : Operand),
    encode (.inp a) = [3 + 100 * (a.mode.toDigit : Int), a.raw] ∧
    (∀ t v q, s.effAddr 1 a = .ok t → s.inq = v :: q →
      exec (.inp a) s = .next { s with inq := q, mem := s.mem.write t v, ip := s.ip + 2 }) ∧
    (∀ t, s.effAddr 1 a = .ok t → s.inq = [] → exec (.inp a) s = .next { s with status := .awaitingInput }) ∧
    (∀ r, s.effAddr 1 a = .error r → exec (.inp a) s = .next (s.enterFault r))

/-- R78 (that the queue has no capacity limit is the spec's own decision D30): OUT. -/
def Obligations.OutAppendsTheValue : Prop :=
  ∀ (s : State) (a : Operand),
    encode (.out a) = [4 + 100 * (a.mode.toDigit : Int), a.raw] ∧
    (∀ v, s.readValue 1 a = .ok v → exec (.out a) s = .next { s with outq := s.outq ++ [v], ip := s.ip + 2 }) ∧
    (∀ r, s.readValue 1 a = .error r → exec (.out a) s = .next (s.enterFault r))

/-- R80 (the spec's own decisions D12 and D14): JT, taken, not taken, and with a negative target. -/
def Obligations.JtJumpsIfNotZero : Prop :=
  ∀ (s : State) (a b : Operand),
    encode (.jt a b) = [5 + 100 * (a.mode.toDigit : Int) + 1000 * b.mode.toDigit, a.raw, b.raw] ∧
    (∀ x y, s.readValue 1 a = .ok x → s.readValue 2 b = .ok y →
      (x ≠ 0 → 0 ≤ y → exec (.jt a b) s = .next { s with ip := y.toNat }) ∧
      (x ≠ 0 → y < 0 → exec (.jt a b) s = .next (s.enterFault ⟨.invalidAddress, 2, y⟩)) ∧
      (x = 0 → exec (.jt a b) s = .next { s with ip := s.ip + 3 })) ∧
    (∀ r, s.readValue 1 a = .error r → exec (.jt a b) s = .next (s.enterFault r)) ∧
    (∀ x r, s.readValue 1 a = .ok x → s.readValue 2 b = .error r → exec (.jt a b) s = .next (s.enterFault r))

/-- R81 (the spec's own decisions D12 and D14): JF, taken, not taken, and with a negative target. -/
def Obligations.JfJumpsIfZero : Prop :=
  ∀ (s : State) (a b : Operand),
    encode (.jf a b) = [6 + 100 * (a.mode.toDigit : Int) + 1000 * b.mode.toDigit, a.raw, b.raw] ∧
    (∀ x y, s.readValue 1 a = .ok x → s.readValue 2 b = .ok y →
      (x = 0 → 0 ≤ y → exec (.jf a b) s = .next { s with ip := y.toNat }) ∧
      (x = 0 → y < 0 → exec (.jf a b) s = .next (s.enterFault ⟨.invalidAddress, 2, y⟩)) ∧
      (x ≠ 0 → exec (.jf a b) s = .next { s with ip := s.ip + 3 })) ∧
    (∀ r, s.readValue 1 a = .error r → exec (.jf a b) s = .next (s.enterFault r)) ∧
    (∀ x r, s.readValue 1 a = .ok x → s.readValue 2 b = .error r → exec (.jf a b) s = .next (s.enterFault r))

/-- R85: ARB, whose parameter is resolved with the old relative base. -/
def Obligations.ArbAdjustsTheBase : Prop :=
  ∀ (s : State) (a : Operand),
    encode (.arb a) = [9 + 100 * (a.mode.toDigit : Int), a.raw] ∧
    (∀ v, s.readValue 1 a = .ok v → exec (.arb a) s = .next { s with rb := s.rb + v, ip := s.ip + 2 }) ∧
    (∀ r, s.readValue 1 a = .error r → exec (.arb a) s = .next (s.enterFault r))

/-- R86 (that the default advance applies is the spec's own decision D15): HLT, from every word whose opcode is 99, and what
a halted machine answers to `run`, `resume` and `peek`. -/
def Obligations.HltHalts : Prop :=
  encode .hlt = [99] ∧
  (∀ (w : Int) (raw : Nat → Int), 0 ≤ w → w % 100 = 99 → decodeWith w raw = .ok .hlt) ∧
  (∀ s : State, exec .hlt s = .next { s with status := .halted, ip := s.ip + 1 }) ∧
  ∀ (s : State) (fuel : Nat) (vs : List Int) (a : Nat), s.status = .halted →
    hostRun fuel s = some (.status .halted, s) ∧ hostResume fuel vs s = some (.error .invalidState, s) ∧
      hostPeek a s = (.value (s.mem.read a), s)

/-! Frames -/

/-- 41_arithmetic.md and 44_compare.md: what ADD, MUL, LT and EQ leave unchanged. The address stored to is `s.effAddr 3 c`. -/
def Obligations.StoringFormsFrame : Prop :=
  ∀ (s t : State) (i : Instr) (a b c : Operand), i ∈ [Instr.add a b c, .mul a b c, .lt a b c, .eq a b c] →
    exec i s = .next t →
    t.rb = s.rb ∧ t.inq = s.inq ∧ t.outq = s.outq ∧
    ((t.status = s.status ∧ t.fault = s.fault) ∨ ∃ r, s.firstRaise 1 (instrParams i) = some r ∧ t = s.enterFault r) ∧
    (∀ adr, s.effAddr 3 c = .ok adr → ∀ x, x ≠ adr → t.mem.read x = s.mem.read x) ∧
    (∀ r, s.effAddr 3 c = .error r → ∀ x, t.mem.read x = s.mem.read x)

/-- 42_io.md: what IN leaves unchanged. The address stored to is `s.effAddr 1 a`. -/
def Obligations.InputFrame : Prop :=
  ∀ (s t : State) (a : Operand), exec (.inp a) s = .next t →
    t.rb = s.rb ∧ t.outq = s.outq ∧
    ((t.status = s.status ∧ t.fault = s.fault ∧ ∃ v, s.inq = v :: t.inq) ∨
      (s.inq = [] ∧ t = { s with status := .awaitingInput }) ∨ ∃ r, s.effAddr 1 a = .error r ∧ t = s.enterFault r) ∧
    (∀ adr, s.effAddr 1 a = .ok adr → ∀ x, x ≠ adr → t.mem.read x = s.mem.read x) ∧
    (∀ r, s.effAddr 1 a = .error r → ∀ x, t.mem.read x = s.mem.read x) ∧
    (s.inq = [] → ∀ x, t.mem.read x = s.mem.read x)

/-- 42_io.md, 43_control_transfer.md and 45_base_and_halt.md: what OUT, JT, JF, ARB and HLT leave unchanged; they store
nothing. -/
def Obligations.NonStoringFormsFrame : Prop :=
  ∀ (s t : State) (i : Instr) (a b : Operand), i ∈ [Instr.out a, .jt a b, .jf a b, .arb a, .hlt] → exec i s = .next t →
    (∀ x, t.mem.read x = s.mem.read x) ∧ t.inq = s.inq ∧
    (t.outq = s.outq ∨ i = .out a) ∧ (t.rb = s.rb ∨ i = .arb a) ∧
    ((t.status = s.status ∧ t.fault = s.fault) ∨ (i = .hlt ∧ t.status = .halted ∧ t.fault = s.fault) ∨
      ∃ r, t = s.enterFault r)

/-! Whole-machine rules -/

/-- R18 (that a negative jump target faults is the spec's own decision D14): what writes `ip`. A step leaves it where it
faults or pauses, sets it to a taken jump's non-negative target, or advances it past the instruction; construction sets it to
0; no other move writes it. -/
def Obligations.InstructionPointerWriters : Prop :=
  (∀ s t : State, step s = .next t →
    (t.ip = s.ip ∧ (t.status = .faulted ∨ t.status = .awaitingInput)) ∨
    ∃ i, s.fetch = .ok i ∧
      (t.ip = s.ip + (encode i).length ∨
        ∃ a b x y, ((i = .jt a b ∧ x ≠ 0) ∨ (i = .jf a b ∧ x = 0)) ∧ s.readValue 1 a = .ok x ∧
          s.readValue 2 b = .ok y ∧ 0 ≤ y ∧ t.ip = y.toNat)) ∧
  (∀ (s : State) (values : List Int) (a : Nat) (v : Int), (s.supply values).ip = s.ip ∧ (s.writeMem a v).ip = s.ip) ∧
  ∀ program input : List Int, (State.construct program input).ip = 0

/-- R19: only ARB writes `rb`, by adding its parameter, and construction sets it to 0; only a relative-mode parameter reads
it: an instruction without one does the same from any other base, which it carries along. -/
def Obligations.RelativeBaseWritersAndReaders : Prop :=
  (∀ s t : State, step s = .next t →
    t.rb = s.rb ∨ ∃ a v, s.fetch = .ok (.arb a) ∧ s.readValue 1 a = .ok v ∧ t.rb = s.rb + v) ∧
  (∀ (i : Instr) (s t : State) (d : Int), (∀ p ∈ i.operands, p.mode ≠ .relative) → exec i s = .next t →
    exec i { s with rb := s.rb + d } = .next { t with rb := t.rb + d }) ∧
  (∀ (s : State) (values : List Int) (a : Nat) (v : Int), (s.supply values).rb = s.rb ∧ (s.writeMem a v).rb = s.rb) ∧
  ∀ program input : List Int, (State.construct program input).rb = 0

/-- 10_state.md section 5, what a program observes: an instruction does not read the status, the fault record or the output
queue. From two states that agree on the rest it makes the same change of the rest and appends the same values. -/
def Obligations.ProgramCannotReadStatusFaultOrOutput : Prop :=
  ∀ (i : Instr) (s t : State) (st : Status) (f : Option FaultRecord) (q : List Int), exec i s = .next t →
    ∃ (u : State) (e : List Int), exec i { s with status := st, fault := f, outq := q } = .next u ∧
      u.ip = t.ip ∧ u.rb = t.rb ∧ u.mem = t.mem ∧ u.inq = t.inq ∧ t.outq = s.outq ++ e ∧ u.outq = q ++ e

/-- R22 (Faulted is the spec's own decision D21): the transitions of the status, and what makes each. -/
def Obligations.StatusTransitions : Prop :=
  (∀ s t : State, Move s t → t.status = s.status ∨ s.status.legalNext t.status = true) ∧
  (∀ s t : State, step s = .next t →
    s.status = .running ∧
    (t.status = .awaitingInput ↔ ∃ a adr, s.fetch = .ok (.inp a) ∧ s.effAddr 1 a = .ok adr ∧ s.inq = []) ∧
    (t.status = .halted ↔ s.fetch = .ok .hlt) ∧
    (t.status = .faulted ↔ ∃ r : Raise, t = s.enterFault r)) ∧
  ∀ (s : State) (values : List Int), s.status = .awaitingInput → (s.supply values).status = .running

/-- 10_state.md section 5 and 60_exceptions.md section 2: Halted and Faulted stay so forever, and of a finished machine only
memory can change, by `poke`. -/
def Obligations.FinishedMachinesStayFinished : Prop :=
  ∀ s t : State, s.status.terminal = true → Relation.ReflTransGen Move s t →
    t.status = s.status ∧ t.fault = s.fault ∧ t.ip = s.ip ∧ t.rb = s.rb ∧ t.inq = s.inq ∧ t.outq = s.outq

/-- 10_state.md sections 4 and 5: only OUT writes the output queue, by appending its value; along any moves the queue only
grows and every earlier value keeps its position. -/
def Obligations.OutputOnlyGrows : Prop :=
  (∀ s t : State, step s = .next t →
    t.outq = s.outq ∨ ∃ a v, s.fetch = .ok (.out a) ∧ s.readValue 1 a = .ok v ∧ t.outq = s.outq ++ [v]) ∧
  ∀ s t : State, Relation.ReflTransGen Move s t → s.outq <+: t.outq

/-- 10_state.md section 5: the invariant holds at reset. That `State.reset` is construction with the empty program is the
model's choice (log entry 3). -/
def Obligations.InvariantHoldsAtReset : Prop := State.reset.Inv

/-- 10_state.md sections 3 to 5: every step keeps the invariant (canonical memory; a fault recorded exactly in Faulted; a
recorded fault sound). -/
def Obligations.StepKeepsTheInvariant : Prop :=
  ∀ s t : State, s.Inv → step s = .next t → t.Inv

/-- 10_state.md section 5: every state an instance can come to, by construction, steps, resumes and pokes, satisfies the
invariant. -/
def Obligations.ReachableStatesSatisfyTheInvariant : Prop := ∀ s : State, Reachable s → s.Inv

/-! Memory -/

/-- 20_memory.md section 1: no operation can tell whether an address was ever written. Canonical memories that read alike are
equal, and writing the value an address already reads changes nothing. -/
def Obligations.MemoryIsItsReads : Prop :=
  (∀ m m' : Memory, m.wf = true → m'.wf = true → (∀ a, m.read a = m'.read a) → m = m') ∧
  ∀ (m : Memory) (a : Nat), m.wf = true → m.write a (m.read a) = m

/-- 20_memory.md section 4, fetch is coherent with stores: the next fetch after a store to any address sees the stored
word, as instruction word or as parameter word. -/
def Obligations.FetchSeesEveryStore : Prop :=
  ∀ (s : State) (a : Nat) (v : Int), s.mem.wf = true →
    (s.writeMem a v).fetch = decodeWith (if a = s.ip then v else s.mem.read s.ip)
      fun k => if a = s.ip + k then v else s.mem.read (s.ip + k)

/-! Reset and the host interface -/

/-- R89 and R30 (the fault record and the loader are the spec's own decisions D21 and D28): what construction leaves. -/
def Obligations.ConstructionSetsEveryElement : Prop :=
  ∀ (program input : List Int),
    (State.construct program input).ip = 0 ∧ (State.construct program input).rb = 0 ∧
    (State.construct program input).status = .running ∧ (State.construct program input).fault = none ∧
    (State.construct program input).inq = input ∧ (State.construct program input).outq = [] ∧
    ∀ a, (State.construct program input).mem.read a = program.getD a 0

/-- 70_reset_and_hazards.md section 1. That the model's one reset state is construction with the empty program and the empty
input is the model's choice (log entry 3). -/
def Obligations.ResetIsTheEmptyConstruction : Prop :=
  State.reset = State.construct [] [] ∧
    step State.reset = .next (State.reset.enterFault ⟨.invalidOpcode, 0, 0⟩)

/-- 46_host_interface.md section 2, `run` (R90; what it answers once Faulted is the spec's own decision D22), one step of fuel
at a time. The fuel, and that `run` without it answers none while Running, is the model's choice (log entry 10, after R118). -/
def Obligations.RunStepsWhileRunning : Prop :=
  ∀ s : State,
    (s.status = .running → hostRun 0 s = none ∧ ∀ n t, stepBody s = .next t → hostRun (n + 1) s = hostRun n t) ∧
    (∀ n, s.status = .awaitingInput ∨ s.status = .halted → hostRun n s = some (.status s.status, s)) ∧
    (∀ n r, s.status = .faulted → s.fault = some r → hostRun n s = some (.fault r, s))

/-- 46_host_interface.md section 3: where `run` returns, the status is not Running, the response is that status or the fault
record, and more fuel gives the same answer. Fuel is the model's way to say how long a run is. -/
def Obligations.RunReturnsOnceNotRunning : Prop :=
  ∀ (n : Nat) (s t : State) (r : Response), hostRun n s = some (r, t) →
    t.status ≠ .running ∧ (t.status ≠ .faulted → r = .status t.status) ∧
      (∀ f, t.status = .faulted → t.fault = some f → r = .fault f) ∧ ∀ m, n ≤ m → hostRun m s = some (r, t)

/-- R91 (the spec's own decisions D16, D17 and D22): `resume` in every status. -/
def Obligations.ResumeInEveryStatus : Prop :=
  ∀ (s : State) (fuel : Nat) (values : List Int),
    (s.status = .halted → hostResume fuel values s = some (.error .invalidState, s)) ∧
    (∀ r, s.status = .faulted → s.fault = some r → hostResume fuel values s = some (.fault r, s)) ∧
    (s.status = .running → hostResume fuel values s = hostRun fuel { s with inq := s.inq ++ values }) ∧
    (s.status = .awaitingInput →
      hostResume fuel values s = hostRun fuel { s with inq := s.inq ++ values, status := .running })

/-- 42_io.md (the pause of IN) and 60_exceptions.md section 3 (the wait state): an IN that finds no input pauses and changes
nothing else; resumed with nothing it pauses again in the same state; resumed with values, its next step consumes the first
of them. -/
def Obligations.PauseAndResume : Prop :=
  ∀ (s : State) (a : Operand) (adr : Nat), s.status = .running → s.fetch = .ok (.inp a) → s.effAddr 1 a = .ok adr →
    s.inq = [] →
    step s = .next { s with status := .awaitingInput } ∧
    (∀ n, hostResume (n + 1) [] { s with status := .awaitingInput } =
      some (.status .awaitingInput, { s with status := .awaitingInput })) ∧
    ∀ (n : Nat) (v : Int) (vs : List Int), hostResume (n + 1) (v :: vs) { s with status := .awaitingInput } =
      hostRun n { s with inq := vs, mem := s.mem.write adr v, ip := s.ip + 2 }

/-- R88 (the spec's own decision D20): a host-level error changes no state, and it is InvalidState or the InvalidAddress of a
`peek` or `poke`. -/
def Obligations.HostErrorsChangeNothing : Prop :=
  ∀ (fuel : Nat) (q : Request) (s t : State) (e : HostError), serve fuel q s = some (.error e, t) →
    t = s ∧ (e = .invalidState ∨ (e = .invalidAddress ∧ ∃ a v, a < 0 ∧ (q = .peek a ∨ q = .poke a v)))

/-- R93, R94 and R95 (the spec's own decisions D19 to D21 and D30): `status`, `outputs` and `peek` answer and change nothing,
in every status. -/
def Obligations.ObservationsChangeNothing : Prop :=
  ∀ (fuel : Nat) (s : State),
    serve fuel .status s = some (.status s.status, s) ∧
    serve fuel .outputs s = some (.outputs s.outq, s) ∧
    (∀ a : Int, 0 ≤ a → serve fuel (.peek a) s = some (.value (s.mem.read a.toNat), s)) ∧
    ∀ a : Int, a < 0 → serve fuel (.peek a) s = some (.error .invalidAddress, s)

/-- R96 (the spec's own decisions D19 and D20): `poke` writes one cell and nothing else, in every status; a `peek` then reads
it and every other cell as before, and the next fetch at that address sees it. -/
def Obligations.PokeWritesOneCell : Prop :=
  ∀ (fuel : Nat) (s : State) (a v : Int), s.mem.wf = true →
    (a < 0 → serve fuel (.poke a v) s = some (.error .invalidAddress, s)) ∧
    (0 ≤ a → ∃ t, serve fuel (.poke a v) s = some (.done, t) ∧ t = { s with mem := t.mem } ∧
      (∀ b : Int, 0 ≤ b → serve fuel (.peek b) t = some (.value (if b = a then v else s.mem.read b.toNat), t)) ∧
      ((s.ip : Int) = a → t.instrWord = v))

/-- R106 (the spec's own decisions D22 and D27): a Faulted machine answers its recorded fault to `run`, `resume` and `step`
and does not change; `peek`, `poke`, `status` and `outputs` still work. -/
def Obligations.FaultedMachineAnswersItsRecord : Prop :=
  ∀ (fuel : Nat) (s : State) (r : FaultRecord) (values : List Int) (a : Nat) (v : Int),
    s.status = .faulted → s.fault = some r →
    serve fuel .run s = some (.fault r, s) ∧ serve fuel (.resume values) s = some (.fault r, s) ∧
    serve fuel .step s = some (.fault r, s) ∧ serve fuel .status s = some (.status .faulted, s) ∧
    serve fuel .outputs s = some (.outputs s.outq, s) ∧ serve fuel (.peek a) s = some (.value (s.mem.read a), s) ∧
    serve fuel (.poke a v) s = some (.done, { s with mem := s.mem.write a v })

/-- R111 and R87 (and R39 for the memory store): an operation on one instance changes no other instance. That the instances
are a list, of which one operation names one, is the model's choice (log entry 11). -/
def Obligations.InstancesShareNothing : Prop :=
  ∀ (fuel j : Nat) (q : Request) (xs ys : Instances) (r : Response), serveAt fuel j q xs = some (r, ys) →
    ys.length = xs.length ∧ (∀ k, k ≠ j → ys[k]? = xs[k]?) ∧
      ∃ s t, xs[j]? = some s ∧ serve fuel q s = some (r, t) ∧ ys[j]? = some t

/-- 43_control_transfer.md and 70_reset_and_hazards.md section 3: a taken jump to its own address changes nothing, so a run
from there never returns. -/
def Obligations.SelfJumpNeverReturns : Prop :=
  ∀ (s : State) (a b : Operand) (x : Int), s.status = .running → s.readValue 1 a = .ok x →
    s.readValue 2 b = .ok (s.ip : Int) → (s.fetch = .ok (.jt a b) ∧ x ≠ 0) ∨ (s.fetch = .ok (.jf a b) ∧ x = 0) →
    step s = .next s ∧ ∀ fuel, hostRun fuel s = none

/-- The model's interface to its host, log entries 3 and 4: an instruction word placed with `State.withFetchWord` is the one
the next step runs. -/
def Obligations.PlacedWordIsRunNext : Prop :=
  ∀ (s : State) (nbits w : Nat) (i : Instr), s.mem.wf = true → decodeTableWord nbits w = some i →
    step (s.withFetchWord nbits w) = exec i (s.withFetchWord nbits w)

/-! Assembly -/

/-- R59 (the spec's own decision D10): what the two pseudo-instructions emit. -/
def Obligations.PseudoInstructionsExpand : Prop :=
  ∀ (labels : List (List Char × Nat)) (s d t : AsmOperand) (ps pd pt : Operand), s.resolve labels = some ps →
    d.resolve labels = some pd → t.resolve labels = some pt →
    (AsmItem.jmp t).emit labels = some [105 + 1000 * (pt.mode.toDigit : Int), 1, pt.raw] ∧
    (AsmItem.mov s d).emit labels =
      some [1001 + 100 * (ps.mode.toDigit : Int) + 10000 * pd.mode.toDigit, ps.raw, 0, pd.raw]

/-- 30_encoding.md section 7: the words an instruction line emits decode to the instruction it was written as. -/
def Obligations.AssembledInstructionDecodes : Prop :=
  ∀ (labels : List (List Char × Nat)) (op : Opcode) (ps : List AsmOperand) (ws : List Int),
    (AsmItem.instr op ps).emit labels = some ws →
    ∃ i, decode ws = .ok i ∧ i.opcode = op ∧ ws = encode i ∧
      i.operands.map some = ps.map (AsmOperand.resolve labels)

/-! Completion: where every instruction has its own effect, by conditions on the state and the operands alone -/

/-- R75, R76, R83 and R84 with the conditions of R53, R64 and R65: ADD, MUL, LT and EQ complete whenever both read parameters
have mode 0, 1 or 2, the target has mode 0 or 2, and no address is negative. -/
def Obligations.StoringFormsComplete : Prop :=
  ∀ (s : State) (a b c : Operand), s.CanRead a → s.CanRead b → s.CanWrite c →
    exec (.add a b c) s = .next { s with
      mem := s.mem.write (s.addressOf c).toNat (s.valueOf a + s.valueOf b), ip := s.ip + 4 } ∧
    exec (.mul a b c) s = .next { s with
      mem := s.mem.write (s.addressOf c).toNat (s.valueOf a * s.valueOf b), ip := s.ip + 4 } ∧
    exec (.lt a b c) s = .next { s with
      mem := s.mem.write (s.addressOf c).toNat (if s.valueOf a < s.valueOf b then 1 else 0), ip := s.ip + 4 } ∧
    exec (.eq a b c) s = .next { s with
      mem := s.mem.write (s.addressOf c).toNat (if s.valueOf a = s.valueOf b then 1 else 0), ip := s.ip + 4 }

/-- R78 and R85 with the conditions of R53 and R64: OUT and ARB complete whenever their parameter has mode 0, 1 or 2 and names
no negative address. -/
def Obligations.OutAndArbComplete : Prop :=
  ∀ (s : State) (a : Operand), s.CanRead a →
    exec (.out a) s = .next { s with outq := s.outq ++ [s.valueOf a], ip := s.ip + 2 } ∧
    exec (.arb a) s = .next { s with rb := s.rb + s.valueOf a, ip := s.ip + 2 }

/-- R77, R80, R81 and R86 with the conditions of R53, R64 and R65: IN completes whenever its target resolves and a value
waits; JT and JF complete whenever their parameters resolve and a taken target is not negative; HLT completes always. -/
def Obligations.InputJumpsAndHaltComplete : Prop :=
  (∀ (s : State) (a : Operand) (v : Int) (q : List Int), s.CanWrite a → s.inq = v :: q →
    exec (.inp a) s = .next { s with inq := q, mem := s.mem.write (s.addressOf a).toNat v, ip := s.ip + 2 }) ∧
  (∀ (s : State) (a b : Operand), s.CanRead a → s.CanRead b →
    (s.valueOf a ≠ 0 → 0 ≤ s.valueOf b → exec (.jt a b) s = .next { s with ip := (s.valueOf b).toNat }) ∧
    (s.valueOf a = 0 → exec (.jt a b) s = .next { s with ip := s.ip + 3 }) ∧
    (s.valueOf a = 0 → 0 ≤ s.valueOf b → exec (.jf a b) s = .next { s with ip := (s.valueOf b).toNat }) ∧
    (s.valueOf a ≠ 0 → exec (.jf a b) s = .next { s with ip := s.ip + 3 })) ∧
  ∀ s : State, exec .hlt s = .next { s with status := .halted, ip := s.ip + 1 }
end

