-- ==== Sys2Proof/Laws/Memory.lean ====
section
/-!
SUPPORT. The memory store: reads after writes (R31, R32) and the canonical form (R33), which every memory operation keeps.
-/
namespace Sys2Proof.Machine

/-- An address below every listed one reads as unwritten. -/
theorem Memory.read_below {m : Memory} {lo a : Nat} (h : Memory.wfFrom lo m = true) (ha : a < lo) :
    Memory.read m a = 0 := by
  induction m generalizing lo with
  | nil => rfl
  | cons c m ih =>
    obtain ⟨b, w⟩ := c
    simp only [Memory.wfFrom, Bool.and_eq_true, decide_eq_true_eq] at h
    have hne : a ≠ b := by omega
    simp only [Memory.read, hne, if_false]
    exact ih h.2 (by omega)

/-- A canonical list from `lo'` on is one from any smaller `lo` on. -/
theorem Memory.wfFrom_mono {m : Memory} {lo lo' : Nat} (h : Memory.wfFrom lo' m = true) (hl : lo ≤ lo') :
    Memory.wfFrom lo m = true := by
  cases m with
  | nil => rfl
  | cons c m =>
    obtain ⟨b, w⟩ := c
    simp only [Memory.wfFrom, Bool.and_eq_true, decide_eq_true_eq] at h ⊢
    exact ⟨⟨by omega, h.1.2⟩, h.2⟩

/-- A write at or above `lo` keeps the canonical form from `lo` on. -/
theorem Memory.write_wfFrom {m : Memory} {lo a : Nat} (v : Int) (h : Memory.wfFrom lo m = true) (ha : lo ≤ a) :
    Memory.wfFrom lo (Memory.write m a v) = true := by
  induction m generalizing lo with
  | nil =>
    by_cases hv : v = 0
    · simp [Memory.write, Memory.wfFrom, hv]
    · simp [Memory.write, Memory.wfFrom, hv, ha]
  | cons c m ih =>
    obtain ⟨b, w⟩ := c
    have h' := h
    simp only [Memory.wfFrom, Bool.and_eq_true, decide_eq_true_eq] at h
    obtain ⟨⟨hb, hw⟩, hm⟩ := h
    rcases Nat.lt_trichotomy a b with hab | hab | hab
    · by_cases hv : v = 0
      · simpa [Memory.write, hab, hv] using h'
      · simp [Memory.write, hab, hv, Memory.wfFrom, ha, hm, hw]
    · subst hab
      by_cases hv : v = 0
      · simpa [Memory.write, hv] using Memory.wfFrom_mono hm (by omega)
      · simp [Memory.write, hv, Memory.wfFrom, ha, hm]
    · have h1 : ¬ a < b := by omega
      have h2 : a ≠ b := by omega
      simp only [Memory.write, h1, h2, if_false, Memory.wfFrom, Bool.and_eq_true, decide_eq_true_eq]
      exact ⟨⟨hb, hw⟩, ih hm (by omega)⟩

/-- A write keeps the canonical form. -/
theorem Memory.write_wf {m : Memory} (a : Nat) (v : Int) (h : m.wf = true) : (m.write a v).wf = true :=
  Memory.write_wfFrom v h (Nat.zero_le a)

/-- Storing a list of words keeps the canonical form. -/
theorem Memory.load_wf {m : Memory} (a : Nat) (ws : List Int) (h : m.wf = true) : (m.load a ws).wf = true := by
  induction ws generalizing m a with
  | nil => exact h
  | cons w ws ih => exact ih (a + 1) (Memory.write_wf a w h)

/-- The memory of `State.reset` has the canonical form. -/
theorem reset_mem_wf : State.reset.mem.wf = true := rfl

/-- A write leaves every other address alone, in any list. -/
theorem Memory.read_write_other (m : Memory) {a b : Nat} (v : Int) (hab : b ≠ a) :
    (m.write a v).read b = m.read b := by
  induction m with
  | nil => by_cases hv : v = 0 <;> simp [Memory.write, Memory.read, hv, hab]
  | cons c m ih =>
    obtain ⟨d, w⟩ := c
    simp only [Memory.write]
    split
    · split <;> simp [Memory.read, hab]
    · split
      · rename_i hd
        subst hd
        split <;> simp [Memory.read, hab]
      · simp [Memory.read, ih]

/-- A write is read back. -/
theorem Memory.read_write_same {m : Memory} (a : Nat) (v : Int) (h : m.wf = true) : (m.write a v).read a = v := by
  suffices H : ∀ (m : Memory) (lo : Nat), Memory.wfFrom lo m = true → (Memory.write m a v).read a = v from H m 0 h
  intro m
  induction m with
  | nil =>
    intro lo _
    by_cases hv : v = 0 <;> simp [Memory.write, Memory.read, hv]
  | cons c m ih =>
    intro lo hw
    obtain ⟨d, w⟩ := c
    have hw' := hw
    simp only [Memory.wfFrom, Bool.and_eq_true, decide_eq_true_eq] at hw
    rcases Nat.lt_trichotomy a d with hd | hd | hd
    · by_cases hv : v = 0
      · have h1 : a ≠ d := by omega
        simp [Memory.write, hd, hv, Memory.read, h1, Memory.read_below hw.2 (by omega : a < d + 1)]
      · simp [Memory.write, hd, hv, Memory.read]
    · subst hd
      by_cases hv : v = 0
      · simp [Memory.write, hv, Memory.read_below hw.2 (Nat.lt_succ_self a)]
      · simp [Memory.write, hv, Memory.read]
    · have h1 : ¬ a < d := by omega
      have h2 : a ≠ d := by omega
      simp only [Memory.write, h1, h2, if_false, Memory.read]
      exact ih (d + 1) hw.2

/-- What every address reads as after a write. -/
theorem Memory.read_write {m : Memory} (a b : Nat) (v : Int) (h : m.wf = true) :
    (m.write a v).read b = if b = a then v else m.read b := by
  split
  · rename_i hb
    subst hb
    exact Memory.read_write_same b v h
  · rename_i hb
    exact Memory.read_write_other m v hb

end Sys2Proof.Machine
end

