-- ==== Sys2Proof/Laws/State.lean ====
section
/-!
SUPPORT. What each named update of State does to each field, so that no later proof unfolds a record update.
-/
namespace Sys2Proof.Machine

@[simp] theorem State.enterFault_ip (s : State) (r : Raise) : (s.enterFault r).ip = s.ip := rfl
@[simp] theorem State.enterFault_rb (s : State) (r : Raise) : (s.enterFault r).rb = s.rb := rfl
@[simp] theorem State.enterFault_status (s : State) (r : Raise) : (s.enterFault r).status = .faulted := rfl
@[simp] theorem State.enterFault_fault (s : State) (r : Raise) : (s.enterFault r).fault = some
      { kind := r.kind, code := r.kind.code, atIp := s.ip, word := s.instrWord, param := r.param, detail := r.detail } := rfl
@[simp] theorem State.enterFault_mem (s : State) (r : Raise) : (s.enterFault r).mem = s.mem := rfl
@[simp] theorem State.enterFault_inq (s : State) (r : Raise) : (s.enterFault r).inq = s.inq := rfl
@[simp] theorem State.enterFault_outq (s : State) (r : Raise) : (s.enterFault r).outq = s.outq := rfl

@[simp] theorem State.writeMem_ip (s : State) (a : Nat) (v : Int) : (s.writeMem a v).ip = s.ip := rfl
@[simp] theorem State.writeMem_rb (s : State) (a : Nat) (v : Int) : (s.writeMem a v).rb = s.rb := rfl
@[simp] theorem State.writeMem_status (s : State) (a : Nat) (v : Int) : (s.writeMem a v).status = s.status := rfl
@[simp] theorem State.writeMem_fault (s : State) (a : Nat) (v : Int) : (s.writeMem a v).fault = s.fault := rfl
@[simp] theorem State.writeMem_mem (s : State) (a : Nat) (v : Int) : (s.writeMem a v).mem = s.mem.write a v := rfl
@[simp] theorem State.writeMem_inq (s : State) (a : Nat) (v : Int) : (s.writeMem a v).inq = s.inq := rfl
@[simp] theorem State.writeMem_outq (s : State) (a : Nat) (v : Int) : (s.writeMem a v).outq = s.outq := rfl

@[simp] theorem State.advance_ip (s : State) (n : Nat) : (s.advance n).ip = s.ip + 1 + n := rfl
@[simp] theorem State.advance_rb (s : State) (n : Nat) : (s.advance n).rb = s.rb := rfl
@[simp] theorem State.advance_status (s : State) (n : Nat) : (s.advance n).status = s.status := rfl
@[simp] theorem State.advance_fault (s : State) (n : Nat) : (s.advance n).fault = s.fault := rfl
@[simp] theorem State.advance_mem (s : State) (n : Nat) : (s.advance n).mem = s.mem := rfl
@[simp] theorem State.advance_inq (s : State) (n : Nat) : (s.advance n).inq = s.inq := rfl
@[simp] theorem State.advance_outq (s : State) (n : Nat) : (s.advance n).outq = s.outq := rfl

@[simp] theorem State.jumpTo_ip (s : State) (t : Nat) : (s.jumpTo t).ip = t := rfl
@[simp] theorem State.jumpTo_rb (s : State) (t : Nat) : (s.jumpTo t).rb = s.rb := rfl
@[simp] theorem State.jumpTo_status (s : State) (t : Nat) : (s.jumpTo t).status = s.status := rfl
@[simp] theorem State.jumpTo_fault (s : State) (t : Nat) : (s.jumpTo t).fault = s.fault := rfl
@[simp] theorem State.jumpTo_mem (s : State) (t : Nat) : (s.jumpTo t).mem = s.mem := rfl
@[simp] theorem State.jumpTo_inq (s : State) (t : Nat) : (s.jumpTo t).inq = s.inq := rfl
@[simp] theorem State.jumpTo_outq (s : State) (t : Nat) : (s.jumpTo t).outq = s.outq := rfl

@[simp] theorem State.addRb_ip (s : State) (v : Int) : (s.addRb v).ip = s.ip := rfl
@[simp] theorem State.addRb_rb (s : State) (v : Int) : (s.addRb v).rb = s.rb + v := rfl
@[simp] theorem State.addRb_status (s : State) (v : Int) : (s.addRb v).status = s.status := rfl
@[simp] theorem State.addRb_fault (s : State) (v : Int) : (s.addRb v).fault = s.fault := rfl
@[simp] theorem State.addRb_mem (s : State) (v : Int) : (s.addRb v).mem = s.mem := rfl
@[simp] theorem State.addRb_inq (s : State) (v : Int) : (s.addRb v).inq = s.inq := rfl
@[simp] theorem State.addRb_outq (s : State) (v : Int) : (s.addRb v).outq = s.outq := rfl

@[simp] theorem State.withStatus_ip (s : State) (st : Status) : (s.withStatus st).ip = s.ip := rfl
@[simp] theorem State.withStatus_rb (s : State) (st : Status) : (s.withStatus st).rb = s.rb := rfl
@[simp] theorem State.withStatus_status (s : State) (st : Status) : (s.withStatus st).status = st := rfl
@[simp] theorem State.withStatus_fault (s : State) (st : Status) : (s.withStatus st).fault = s.fault := rfl
@[simp] theorem State.withStatus_mem (s : State) (st : Status) : (s.withStatus st).mem = s.mem := rfl
@[simp] theorem State.withStatus_inq (s : State) (st : Status) : (s.withStatus st).inq = s.inq := rfl
@[simp] theorem State.withStatus_outq (s : State) (st : Status) : (s.withStatus st).outq = s.outq := rfl

@[simp] theorem State.withInq_ip (s : State) (q : List Int) : (s.withInq q).ip = s.ip := rfl
@[simp] theorem State.withInq_rb (s : State) (q : List Int) : (s.withInq q).rb = s.rb := rfl
@[simp] theorem State.withInq_status (s : State) (q : List Int) : (s.withInq q).status = s.status := rfl
@[simp] theorem State.withInq_fault (s : State) (q : List Int) : (s.withInq q).fault = s.fault := rfl
@[simp] theorem State.withInq_mem (s : State) (q : List Int) : (s.withInq q).mem = s.mem := rfl
@[simp] theorem State.withInq_inq (s : State) (q : List Int) : (s.withInq q).inq = q := rfl
@[simp] theorem State.withInq_outq (s : State) (q : List Int) : (s.withInq q).outq = s.outq := rfl

@[simp] theorem State.emit_ip (s : State) (v : Int) : (s.emit v).ip = s.ip := rfl
@[simp] theorem State.emit_rb (s : State) (v : Int) : (s.emit v).rb = s.rb := rfl
@[simp] theorem State.emit_status (s : State) (v : Int) : (s.emit v).status = s.status := rfl
@[simp] theorem State.emit_fault (s : State) (v : Int) : (s.emit v).fault = s.fault := rfl
@[simp] theorem State.emit_mem (s : State) (v : Int) : (s.emit v).mem = s.mem := rfl
@[simp] theorem State.emit_inq (s : State) (v : Int) : (s.emit v).inq = s.inq := rfl
@[simp] theorem State.emit_outq (s : State) (v : Int) : (s.emit v).outq = s.outq ++ [v] := rfl

@[simp] theorem State.supply_ip (s : State) (vs : List Int) : (s.supply vs).ip = s.ip := rfl
@[simp] theorem State.supply_rb (s : State) (vs : List Int) : (s.supply vs).rb = s.rb := rfl
@[simp] theorem State.supply_status (s : State) (vs : List Int) : (s.supply vs).status = if s.status = .awaitingInput then .running else s.status := rfl
@[simp] theorem State.supply_fault (s : State) (vs : List Int) : (s.supply vs).fault = s.fault := rfl
@[simp] theorem State.supply_mem (s : State) (vs : List Int) : (s.supply vs).mem = s.mem := rfl
@[simp] theorem State.supply_inq (s : State) (vs : List Int) : (s.supply vs).inq = s.inq ++ vs := rfl
@[simp] theorem State.supply_outq (s : State) (vs : List Int) : (s.supply vs).outq = s.outq := rfl

end Sys2Proof.Machine
end

