-- ==== Sys2Proof/Laws/Operands.lean ====
section
/-!
SUPPORT. What each shared operation of a meaning can answer: one lemma each, cited instead of unfolding the operation.
-/
namespace Sys2Proof.Machine

/-- Reading a parameter ends the step with fault entry, or goes on with the value. -/
theorem State.withRead_cases {s : State} {k : Nat} {p : Operand} {go : Int → Answer} {ans : Answer}
    (h : s.withRead k p go = ans) :
    (∃ r, s.readValue k p = .error r ∧ ans = .next (s.enterFault r)) ∨ ∃ v, s.readValue k p = .ok v ∧ ans = go v := by
  unfold State.withRead at h
  split at h
  · rename_i r hr; exact .inl ⟨r, hr, h.symm⟩
  · rename_i v hv; exact .inr ⟨v, hv, h.symm⟩

/-- Resolving a target ends the step with fault entry, or goes on with the address. -/
theorem State.withTarget_cases {s : State} {k : Nat} {p : Operand} {go : Nat → Answer} {ans : Answer}
    (h : s.withTarget k p go = ans) :
    (∃ r, s.effAddr k p = .error r ∧ ans = .next (s.enterFault r)) ∨ ∃ t, s.effAddr k p = .ok t ∧ ans = go t := by
  unfold State.withTarget at h
  split at h
  · rename_i r hr; exact .inl ⟨r, hr, h.symm⟩
  · rename_i v hv; exact .inr ⟨v, hv, h.symm⟩

/-- A parameter that reads goes on with its value. -/
theorem State.withRead_ok {s : State} {k : Nat} {p : Operand} {v : Int} (go : Int → Answer)
    (h : s.readValue k p = .ok v) : s.withRead k p go = go v := by
  simp only [State.withRead, h]

/-- A parameter that raises ends the step with fault entry. -/
theorem State.withRead_error {s : State} {k : Nat} {p : Operand} {r : Raise} (go : Int → Answer)
    (h : s.readValue k p = .error r) : s.withRead k p go = .next (s.enterFault r) := by
  simp only [State.withRead, h]

/-- A target that resolves goes on with its address. -/
theorem State.withTarget_ok {s : State} {k : Nat} {p : Operand} {t : Nat} (go : Nat → Answer)
    (h : s.effAddr k p = .ok t) : s.withTarget k p go = go t := by
  simp only [State.withTarget, h]

/-- A target that raises ends the step with fault entry. -/
theorem State.withTarget_error {s : State} {k : Nat} {p : Operand} {r : Raise} (go : Nat → Answer)
    (h : s.effAddr k p = .error r) : s.withTarget k p go = .next (s.enterFault r) := by
  simp only [State.withTarget, h]

/-- What an instruction of format F3 can answer. -/
theorem State.binary_cases {s : State} {f : Int → Int → Int} {a b c : Operand} {ans : Answer}
    (h : s.binary f a b c = ans) :
    (∃ r, (s.readValue 1 a = .error r ∨ s.readValue 2 b = .error r ∨ s.effAddr 3 c = .error r) ∧
      ans = .next (s.enterFault r)) ∨
    ∃ x y t, s.readValue 1 a = .ok x ∧ s.readValue 2 b = .ok y ∧ s.effAddr 3 c = .ok t ∧
      ans = .next ((s.writeMem t (f x y)).advance 3) := by
  obtain ⟨r, hr, ha⟩ | ⟨x, hx, h⟩ := State.withRead_cases h
  · exact .inl ⟨r, .inl hr, ha⟩
  obtain ⟨r, hr, ha⟩ | ⟨y, hy, h⟩ := State.withRead_cases h.symm
  · exact .inl ⟨r, .inr (.inl hr), ha⟩
  obtain ⟨r, hr, ha⟩ | ⟨t, ht, h⟩ := State.withTarget_cases h.symm
  · exact .inl ⟨r, .inr (.inr hr), ha⟩
  exact .inr ⟨x, y, t, hx, hy, ht, h⟩

/-- What a jump whose condition is known can answer. -/
theorem State.branch_cases {s : State} {taken : Bool} {target : Int} {ans : Answer} (h : s.branch taken target = ans) :
    (taken = true ∧ target < 0 ∧ ans = .next (s.enterFault ⟨.invalidAddress, 2, target⟩)) ∨
    (taken = true ∧ 0 ≤ target ∧ ans = .next (s.jumpTo target.toNat)) ∨
    (taken = false ∧ ans = .next (s.advance 2)) := by
  unfold State.branch at h
  split at h
  · rename_i ht
    split at h
    · rename_i hn; exact .inl ⟨ht, hn, h.symm⟩
    · rename_i hn; exact .inr (.inl ⟨ht, by omega, h.symm⟩)
  · rename_i ht; exact .inr (.inr ⟨by simpa using ht, h.symm⟩)

end Sys2Proof.Machine
end

