-- ==== Sys2Proof/Laws/PerInstr.lean ====
section
/-!
SUPPORT. A statement for all instructions, one lemma per constructor: an instruction encodes to 1 + n words, one for each
parameter after the first, and its first word has the opcode's number as its two low decimal digits (R46, R48, R55).
-/
namespace Sys2Proof.Laws.Encoded

/-- The length of the encoding and the opcode field of its first word. -/
def Statement (i : Instr) : Prop :=
  (encode i).length = i.opcode.length ∧
    encodeWord i.opcode (i.operands.map fun p => p.mode.toDigit) % 100 = (i.opcode.number : Int)

/-- The opcode field of a canonical word, for any number below 100. -/
theorem encodeWord_mod (op : Opcode) (ms : List Nat) : encodeWord op ms % 100 = (op.number : Int) := by
  have hop : op.number < 100 := by cases op <;> decide
  unfold encodeWord
  omega

theorem add (a b c : Operand) : Statement (.add a b c) := ⟨rfl, encodeWord_mod _ _⟩
theorem mul (a b c : Operand) : Statement (.mul a b c) := ⟨rfl, encodeWord_mod _ _⟩
theorem inp (a : Operand) : Statement (.inp a) := ⟨rfl, encodeWord_mod _ _⟩
theorem out (a : Operand) : Statement (.out a) := ⟨rfl, encodeWord_mod _ _⟩
theorem jt (a b : Operand) : Statement (.jt a b) := ⟨rfl, encodeWord_mod _ _⟩
theorem jf (a b : Operand) : Statement (.jf a b) := ⟨rfl, encodeWord_mod _ _⟩
theorem lt (a b c : Operand) : Statement (.lt a b c) := ⟨rfl, encodeWord_mod _ _⟩
theorem eq (a b c : Operand) : Statement (.eq a b c) := ⟨rfl, encodeWord_mod _ _⟩
theorem arb (a : Operand) : Statement (.arb a) := ⟨rfl, encodeWord_mod _ _⟩
theorem hlt : Statement .hlt := ⟨rfl, encodeWord_mod _ _⟩

end Sys2Proof.Laws.Encoded
end

