-- ==== Sys2Proof/Laws/Step.lean ====
section
/-!
SUPPORT. What one instruction and one step can do: every instruction answers a next state, and a step that answers one is
the body of a step while Running.
-/
namespace Sys2Proof.Machine

/-- A read parameter that can be read resolves to its value. -/
theorem State.readValue_of_canRead {s : State} {p : Operand} (k : Nat) (h : s.CanRead p) :
    s.readValue k p = .ok (s.valueOf p) := by
  obtain ⟨m, raw⟩ := p
  obtain ⟨hm, ha⟩ := h
  cases m with
  | position => exact if_neg (not_lt.2 (ha (by simp)))
  | immediate => rfl
  | relative => exact if_neg (not_lt.2 (ha (by simp)))
  | unrecognized d => cases hm

/-- A write target that can be written resolves to its address. -/
theorem State.effAddr_of_canWrite {s : State} {p : Operand} (k : Nat) (h : s.CanWrite p) :
    s.effAddr k p = .ok (s.addressOf p).toNat := by
  obtain ⟨m, raw⟩ := p
  obtain ⟨hm, ha⟩ := h
  cases m with
  | position => exact if_neg (not_lt.2 ha)
  | immediate => cases hm
  | relative => exact if_neg (not_lt.2 ha)
  | unrecognized d => cases hm

/-- Reading a parameter answers a next state if what follows does. -/
theorem State.withRead_next (s : State) (k : Nat) (p : Operand) (go : Int → Answer) (h : ∀ v, ∃ t, go v = .next t) :
    ∃ t, s.withRead k p go = .next t := by
  obtain ⟨r, _, ha⟩ | ⟨v, _, ha⟩ := State.withRead_cases (s := s) (k := k) (p := p) (go := go) rfl
  · exact ⟨_, ha⟩
  · obtain ⟨t, ht⟩ := h v; exact ⟨t, ha.trans ht⟩

/-- Resolving a target answers a next state if what follows does. -/
theorem State.withTarget_next (s : State) (k : Nat) (p : Operand) (go : Nat → Answer) (h : ∀ v, ∃ t, go v = .next t) :
    ∃ t, s.withTarget k p go = .next t := by
  obtain ⟨r, _, ha⟩ | ⟨v, _, ha⟩ := State.withTarget_cases (s := s) (k := k) (p := p) (go := go) rfl
  · exact ⟨_, ha⟩
  · obtain ⟨t, ht⟩ := h v; exact ⟨t, ha.trans ht⟩

/-- A jump answers a next state. -/
theorem State.branch_next (s : State) (taken : Bool) (target : Int) : ∃ t, s.branch taken target = .next t := by
  obtain ⟨_, _, ha⟩ | ⟨_, _, ha⟩ | ⟨_, ha⟩ := State.branch_cases (s := s) (taken := taken) (target := target) rfl
  all_goals exact ⟨_, ha⟩

/-- An instruction of format F3 answers a next state. -/
theorem State.binary_next (s : State) (f : Int → Int → Int) (a b c : Operand) : ∃ t, s.binary f a b c = .next t := by
  obtain ⟨_, _, ha⟩ | ⟨_, _, _, _, _, _, ha⟩ := State.binary_cases (s := s) (f := f) (a := a) (b := b) (c := c) rfl
  all_goals exact ⟨_, ha⟩

/-- Every instruction answers a next state, in every state: none stops by a fault or a refusal of the model. -/
theorem exec_next (i : Instr) (s : State) : ∃ t, exec i s = .next t := by
  cases i with
  | add a b c => exact State.binary_next s _ a b c
  | mul a b c => exact State.binary_next s _ a b c
  | lt a b c => exact State.binary_next s _ a b c
  | eq a b c => exact State.binary_next s _ a b c
  | inp a =>
    refine State.withTarget_next s 1 a _ fun t => ?_
    split <;> exact ⟨_, rfl⟩
  | out a => exact State.withRead_next s 1 a _ fun v => ⟨_, rfl⟩
  | arb a => exact State.withRead_next s 1 a _ fun v => ⟨_, rfl⟩
  | jt a b => exact State.withRead_next s 1 a _ fun x => State.withRead_next s 2 b _ fun y => State.branch_next s _ y
  | jf a b => exact State.withRead_next s 1 a _ fun x => State.withRead_next s 2 b _ fun y => State.branch_next s _ y
  | hlt => exact ⟨_, rfl⟩

/-- A step that answers a next state runs while Running; it raises InvalidOpcode or runs the fetched instruction. -/
theorem step_cases {s t : State} (h : step s = .next t) :
    s.status = .running ∧
      ((∃ d, s.fetch = .error d ∧ t = s.enterFault ⟨.invalidOpcode, 0, d⟩) ∨ ∃ i, s.fetch = .ok i ∧ exec i s = .next t) := by
  unfold step stepAny at h
  split at h
  · rename_i hs
    refine ⟨hs, ?_⟩
    unfold stepBody at h
    split at h
    · rename_i d hd
      cases h
      exact .inl ⟨d, hd, rfl⟩
    · rename_i i hi
      exact .inr ⟨i, hi, h⟩
  · cases h
  · cases h
  · split at h <;> cases h

/-- While Running a step is the step body. -/
theorem step_running {s : State} (h : s.status = .running) : step s = stepBody s := by
  simp only [step, stepAny, h]

end Sys2Proof.Machine
end

