-- ==== Sys2Proof/Tests/Slice0.lean ====
section
/-!
SUPPORT. Small tests, each of one step or one word, with expected results from 95_test_vectors.md or worked by hand from the
rules, and one witness for each statement with hypotheses: values that meet the hypotheses of every clause, at the ends of
their ranges.
-/
namespace Sys2Proof.Tests
open Sys2Proof Sys2Proof.Machine

/-- A constructed machine with a given relative base. -/
def machine (program : List Int) (input : List Int := []) (rb : Int := 0) : State :=
  { State.construct program input with rb := rb }

/-- What a step leaves, the machine itself where it leaves none. -/
def after (s : State) : State :=
  match step s with
  | .next t => t
  | .fault _ => s
  | .refused _ => s

/-- `[n]`, `#n` and `[rb+n]` of R58. -/
def pos (n : Int) : Operand := ⟨.position, n⟩
def imm (n : Int) : Operand := ⟨.immediate, n⟩
def rel (n : Int) : Operand := ⟨.relative, n⟩
def bad (d : Nat) (n : Int) : Operand := ⟨.unrecognized d, n⟩

/-! The check of WellFormed refuses a mode that is no digit, or that has a constructor of its own, in every place -/

theorem test_wellFormed_mode_range :
    (bad 2 0).wellFormed = false ∧ (bad 10 0).wellFormed = false ∧ (bad 3 0).wellFormed = true ∧
      (bad 9 0).wellFormed = true := by decide

theorem test_wellFormed_refuses_each_place :
    (Instr.add (bad 2 0) (pos 0) (pos 0)).wellFormed = false ∧ (Instr.add (pos 0) (bad 2 0) (pos 0)).wellFormed = false ∧
    (Instr.add (pos 0) (pos 0) (bad 10 0)).wellFormed = false ∧
    (Instr.mul (bad 2 0) (pos 0) (pos 0)).wellFormed = false ∧ (Instr.mul (pos 0) (bad 2 0) (pos 0)).wellFormed = false ∧
    (Instr.mul (pos 0) (pos 0) (bad 10 0)).wellFormed = false ∧
    (Instr.lt (bad 2 0) (pos 0) (pos 0)).wellFormed = false ∧ (Instr.lt (pos 0) (bad 2 0) (pos 0)).wellFormed = false ∧
    (Instr.lt (pos 0) (pos 0) (bad 10 0)).wellFormed = false ∧
    (Instr.eq (bad 2 0) (pos 0) (pos 0)).wellFormed = false ∧ (Instr.eq (pos 0) (bad 2 0) (pos 0)).wellFormed = false ∧
    (Instr.eq (pos 0) (pos 0) (bad 10 0)).wellFormed = false ∧
    (Instr.inp (bad 2 0)).wellFormed = false ∧ (Instr.out (bad 2 0)).wellFormed = false ∧
    (Instr.arb (bad 2 0)).wellFormed = false ∧
    (Instr.jt (bad 2 0) (pos 0)).wellFormed = false ∧ (Instr.jt (pos 0) (bad 10 0)).wellFormed = false ∧
    (Instr.jf (bad 2 0) (pos 0)).wellFormed = false ∧ (Instr.jf (pos 0) (bad 10 0)).wellFormed = false := by decide

/-- R53: an immediate write target is illegal, an immediate read is not. -/
theorem test_legal_modes :
    (Instr.add (imm 0) (rel 0) (imm 0)).legal = false ∧ (Instr.add (imm 0) (rel 0) (rel 0)).legal = true ∧
    (Instr.inp (imm 0)).legal = false ∧ (Instr.jt (bad 3 0) (pos 0)).legal = false := by decide

/-! Decoding (95_test_vectors.md 2.1), every constructor from a word written out digit by digit -/

/-- 1101: digits 1 1 01. -/
theorem test_decode_add : decode [1101, -7, 3, 5] = .ok (.add (imm (-7)) (imm 3) (pos 5)) := rfl
/-- 1002: digits 1 0 02, the missing digit is 0. -/
theorem test_decode_mul : decode [1002, 4, 3, 4] = .ok (.mul (pos 4) (imm 3) (pos 4)) := rfl
theorem test_decode_inp : decode [3, 9] = .ok (.inp (pos 9)) ∧ decode [203, -3] = .ok (.inp (rel (-3))) := ⟨rfl, rfl⟩
/-- 30104: digits 3 and 4 are not examined. -/
theorem test_decode_out : decode [30104, -5] = .ok (.out (imm (-5))) := rfl
theorem test_decode_jt : decode [1005, 10, 0] = .ok (.jt (pos 10) (imm 0)) := rfl
theorem test_decode_jf : decode [2106, 0, 12] = .ok (.jf (imm 0) (rel 12)) := rfl
theorem test_decode_lt : decode [20107, -5, 3, 0] = .ok (.lt (imm (-5)) (pos 3) (rel 0)) := rfl
theorem test_decode_eq : decode [8, 9, 10, 9] = .ok (.eq (pos 9) (pos 10) (pos 9)) := rfl
theorem test_decode_arb : decode [209, 1] = .ok (.arb (rel 1)) := rfl
theorem test_decode_hlt : decode [99] = .ok .hlt ∧ decode [199] = .ok .hlt ∧ decode [20099] = .ok .hlt := ⟨rfl, rfl, rfl⟩
/-- Digit 5 is not examined, digit 4 is. -/
theorem test_decode_unexamined :
    decode [900001, 1, 2, 3] = .ok (.add (pos 1) (pos 2) (pos 3)) ∧
      decode [90001, 1, 2, 3] = .ok (.add (pos 1) (pos 2) (bad 9 3)) := ⟨rfl, rfl⟩
theorem test_decode_refuses :
    decode [0] = .error 0 ∧ decode [10] = .error 10 ∧ decode [98] = .error 98 ∧ decode [100] = .error 0 ∧
      decode [-1] = .error (-1) ∧ decode [-99] = .error (-99) := ⟨rfl, rfl, rfl, rfl, rfl, rfl⟩
theorem test_encode : encode (.mul (pos 4) (imm 3) (pos 4)) = [1002, 4, 3, 4] ∧
    encode (.add (imm 2) (imm 3) (rel (-10))) = [21101, 2, 3, -10] := by decide
theorem test_decodeTableWord : decodeTableWord 8 4 = some (.out (pos 0)) ∧ decodeTableWord 8 0 = none := by decide
theorem test_withFetchWord_runs : (after (State.reset.withFetchWord 8 99)).status = .halted := by decide

/-! Instructions (95_test_vectors.md 2.3 to 2.7) -/

/-- No wrap at 2^63. -/
theorem test_add_unbounded :
    (after (machine [1101, 9223372036854775807, 1, 5])).mem.read 5 = 9223372036854775808 := by decide
/-- S1: the sum overwrites the instruction's own word, and the advance is still 4. -/
theorem test_add_overwrites_itself :
    (after (machine [1, 0, 0, 0, 99])).mem.read 0 = 2 ∧ (after (machine [1, 0, 0, 0, 99])).ip = 4 := by decide
theorem test_mul_negatives : (after (machine [1102, -4, -6, 0])).mem.read 0 = 24 := by decide
theorem test_mul_reads_then_writes : (after (machine [1002, 4, 3, 4, 33])).mem.read 4 = 99 := by decide
theorem test_in_relative :
    (after (machine [203, -3] [9] 5)).mem.read 2 = 9 ∧ (after (machine [203, -3] [9] 5)).inq = [] := by decide
theorem test_in_pauses : after (machine [3, 5]) = { machine [3, 5] with status := .awaitingInput } := by decide
theorem test_out_position : (after (machine [4, 2, 77])).outq = [77] := by decide
theorem test_out_relative_faults :
    after (machine [204, -1]) = { machine [204, -1] with
      status := .faulted, fault := some ⟨.invalidAddress, 3, 0, 204, 1, -1⟩ } := by decide
/-- A negative condition is true. -/
theorem test_jt_negative_condition : (after (machine [1105, -3, 9])).ip = 9 := by decide
/-- The target is resolved although the jump is not taken (D12). -/
theorem test_jt_resolves_target :
    (after (machine [5, 3, -1, 0])).fault = some ⟨.invalidAddress, 3, 0, 5, 2, -1⟩ := by decide
theorem test_jf_negative_target :
    (after (machine [1106, 0, -1])).fault = some ⟨.invalidAddress, 3, 0, 1106, 2, -1⟩ := by decide
theorem test_jf_falls_through : (after (machine [1106, 5, -1])).ip = 3 := by decide
theorem test_lt_signed : (after (machine [1107, -5, 3, 0])).mem.read 0 = 1 ∧
    (after (machine [1107, -1, -2, 0])).mem.read 0 = 0 := by decide
theorem test_lt_strict : (after (machine [1107, 3, 3, 0])).mem.read 0 = 0 := by decide
theorem test_eq_zero : (after (machine [1108, 0, 0, 3])).mem.read 3 = 1 := by decide
theorem test_eq_large :
    (after (machine [1108, 1180591620717411303424, 1180591620717411303424, 3])).mem.read 3 = 1 := by decide
theorem test_arb_adds : (after (machine [109, 19] [] 2000)).rb = 2019 := by decide
/-- 209,1 with rb = 3 reads mem[4] = -10 with the old base. -/
theorem test_arb_old_base : (after (machine [209, 1, 0, 0, -10] [] 3)).rb = -7 := by decide
theorem test_hlt : (after (machine [20099])).status = .halted ∧ (after (machine [20099])).ip = 1 := by decide
/-- R105: parameter 1's address is checked before parameter 3's mode. -/
theorem test_fault_order :
    (after (machine [11001, -1, 0, 0])).fault = some ⟨.invalidAddress, 3, 0, 11001, 1, -1⟩ ∧
      (after (machine [11101, 1, 1, 0])).fault = some ⟨.invalidAddressingMode, 2, 0, 11101, 3, 1⟩ := by decide
/-- D13: an invalid target faults although the queue is empty. -/
theorem test_in_target_first :
    (after (machine [103, 5])).fault = some ⟨.invalidAddressingMode, 2, 0, 103, 1, 1⟩ := by decide

/-! Host operations (95_test_vectors.md 2.8) and assembly -/

theorem test_run_empty_program :
    (hostRun 1 (State.construct [] [])).map (·.1) = some (.fault ⟨.invalidOpcode, 1, 0, 0, 0, 0⟩) := by decide
theorem test_poke_then_run :
    (hostRun 2 (hostPoke 1 4 (State.construct [1, 0, 0, 0, 99] [])).2).map (fun x => x.2.mem.read 0) = some 100 := by decide
theorem test_codes :
    [Status.running, .awaitingInput, .halted, .faulted].map Status.code = [0, 1, 2, 3] ∧
      [HostError.invalidState, .invalidAddress].map HostError.code = [4, 3] := by decide
theorem test_assemble_mul :
    assembleText "MUL [4], #3, [4]".toList = some [1002, 4, 3, 4] := by decide
theorem test_assemble_pseudo :
    assembleText "JMP #40\nJMP [40]\nMOV #7, [20]".toList = some [1105, 1, 40, 105, 1, 40, 1101, 7, 0, 20] := by decide
theorem test_assemble_label :
    assembleText "loop: OUT [x] ; emit\n JT [x], #loop\nx: .word -3, 8".toList = some [4, 5, 1005, 5, 0, -3, 8] := by decide
theorem test_assemble_refuses :
    assembleText "ADD #5, #6".toList = none ∧ assembleText "OUT [y]".toList = none := by decide

/-! Witnesses: values that meet the hypotheses of a statement, clause by clause -/

theorem witness_DecodeOfEncode : (Instr.add (bad 9 (-1)) (imm 1180591620717411303424) (bad 3 0)).wellFormed = true := by decide

theorem witness_DecodeWord :
    ((-1 : Int) < 0) ∧ ((0 : Int) ≤ 0 ∧ (0 : Int) % 100 ∉ ([1, 2, 3, 4, 5, 6, 7, 8, 9, 99] : List Int)) ∧
    ((0 : Int) ≤ 198 ∧ (198 : Int) % 100 ∉ ([1, 2, 3, 4, 5, 6, 7, 8, 9, 99] : List Int)) ∧
    ((0 : Int) ≤ 1 ∧ (1 : Int) % 100 = 1) ∧ ((0 : Int) ≤ 20099 ∧ (20099 : Int) % 100 = 99) ∧
    (1 ≤ 3 ∧ 3 ≤ Opcode.add.nparams) := by decide

theorem witness_UnusedDigits :
    (0 : Int) ≤ 30104 ∧ (0 : Int) ≤ 104 ∧ (30104 : Int) % 100 = Opcode.out.number ∧
      (30104 : Int) % 10 ^ (Opcode.out.nparams + 2) = 104 % 10 ^ (Opcode.out.nparams + 2) := by decide

theorem witness_DecodedWords :
    decode [-30104 + 60208, 7] = .ok (.out (imm 7)) ∧ 1 ≤ 1 ∧ 1 ≤ (Instr.out (imm 7)).opcode.nparams :=
  ⟨rfl, by decide, by decide⟩

theorem witness_StepRunsDecoded :
    (machine [1002, 4, 3, 4, 33]).status = .running ∧
      decode [(machine [1002, 4, 3, 4, 33]).mem.read 0, (machine [1002, 4, 3, 4, 33]).mem.read (0 + 1),
        (machine [1002, 4, 3, 4, 33]).mem.read (0 + 2), (machine [1002, 4, 3, 4, 33]).mem.read (0 + 3)] =
        .ok (.mul (pos 4) (imm 3) (pos 4)) := ⟨rfl, rfl⟩

theorem witness_StepRunsEncoded :
    (machine [1002, 4, 3, 4, 33]).status = .running ∧ (Instr.mul (pos 4) (imm 3) (pos 4)).wellFormed = true ∧
      ∀ k, k < (encode (.mul (pos 4) (imm 3) (pos 4))).length →
        (machine [1002, 4, 3, 4, 33]).mem.read (0 + k) = (encode (.mul (pos 4) (imm 3) (pos 4))).getD k 0 := by decide

theorem witness_UnknownOpcode :
    (machine [198]).status = .running ∧ 0 ≤ (machine [198]).mem.read 0 ∧
      (machine [198]).mem.read 0 % 100 ∉ ([1, 2, 3, 4, 5, 6, 7, 8, 9, 99] : List Int) ∧
      0 ≤ (machine []).mem.read 0 ∧
      (machine []).mem.read 0 % 100 ∉ ([1, 2, 3, 4, 5, 6, 7, 8, 9, 99] : List Int) ∧
      (machine [-1]).status = .running ∧ (machine [-1]).mem.read 0 < 0 := by decide

theorem witness_RunningStep : State.reset.status = .running := rfl

theorem witness_HostStep :
    ((machine [99]).status = .running ∧ stepBody (machine [99]) = .next (after (machine [99])) ∧
      (after (machine [99])).status ≠ .faulted) ∧
    ((machine []).status = .running ∧ stepBody (machine []) = .next (after (machine [])) ∧
      (after (machine [])).status = .faulted ∧ (after (machine [])).fault = some ⟨.invalidOpcode, 1, 0, 0, 0, 0⟩) ∧
    (after (machine [3, 0])).status = .awaitingInput ∧ (after (machine [99])).status = .halted :=
  ⟨⟨rfl, rfl, by decide⟩, ⟨rfl, rfl, rfl, rfl⟩, rfl, rfl⟩

theorem witness_FaultsArePrecise : step (machine [0]) = .next (after (machine [0])) ∧ (after (machine [0])).status = .faulted :=
  ⟨rfl, rfl⟩

/-- For ReadParameterInEveryMode and WriteTargetInEveryMode: the ends of the ranges of an address. -/
theorem witness_ParameterRanges :
    (0 : Int) ≤ 0 ∧ (-1 : Int) < 0 ∧ (0 : Int) ≤ 10 + (machine [] [] (-10)).rb ∧ 9 + (machine [] [] (-10)).rb < 0 := by decide

theorem witness_FirstFault :
    (machine [11001, -1]).firstRaise 1 (instrParams (.add (pos (-1)) (imm 0) (imm 0))) = some ⟨.invalidAddress, 1, -1⟩ ∧
    (machine [1105, 1, -1]).firstRaise 1 (instrParams (.jt (imm 1) (imm (-1)))) = none ∧
    (machine [1105, 1, -1]).status ≠ .faulted ∧
    exec (.jt (imm 1) (imm (-1))) (machine [1105, 1, -1]) = .next (after (machine [1105, 1, -1])) ∧
    (after (machine [1105, 1, -1])).status = .faulted := ⟨rfl, rfl, by decide, rfl, rfl⟩

theorem witness_IllegalModes :
    exec (.inp (imm 5)) (machine [103, 5]) = .next (after (machine [103, 5])) ∧ (Instr.inp (imm 5)).legal = false ∧
    exec (.inp (pos (-1))) (machine [3, -1]) = .next (after (machine [3, -1])) ∧ (Instr.inp (pos (-1))).legal = true ∧
    (machine [3, -1]).status ≠ .faulted ∧ (after (machine [3, -1])).status = .faulted :=
  ⟨rfl, rfl, rfl, rfl, by decide, rfl⟩

/-- For ADD, MUL, LT and EQ alike: every parameter resolves (the target at address 0), or the first, the second or the third
does not. -/
theorem witness_F3_clauses :
    ((machine [1]).readValue 1 (pos 0) = .ok 1 ∧ (machine [1]).readValue 2 (imm (-2)) = .ok (-2) ∧
      (machine [1]).effAddr 3 (pos 0) = .ok 0) ∧
    (machine [1]).readValue 1 (pos (-1)) = .error ⟨.invalidAddress, 1, -1⟩ ∧
    (machine [1]).readValue 2 (bad 3 0) = .error ⟨.invalidAddressingMode, 2, 3⟩ ∧
    (machine [1]).effAddr 3 (imm 0) = .error ⟨.invalidAddressingMode, 3, 1⟩ := ⟨⟨rfl, rfl, rfl⟩, rfl, rfl, rfl⟩

theorem witness_In_clauses :
    ((machine [3, 0] [42]).effAddr 1 (pos 0) = .ok 0 ∧ (machine [3, 0] [42]).inq = 42 :: []) ∧
    ((machine [3, 0]).effAddr 1 (pos 0) = .ok 0 ∧ (machine [3, 0]).inq = []) ∧
    (machine [3, -1]).effAddr 1 (pos (-1)) = .error ⟨.invalidAddress, 1, -1⟩ := ⟨⟨rfl, rfl⟩, ⟨rfl, rfl⟩, rfl⟩

/-- For OUT and ARB alike: the parameter resolves, or does not. -/
theorem witness_F1R_clauses :
    (machine [4, 0] [] 3).readValue 1 (rel (-3)) = .ok 4 ∧
      (machine [4, 0] [] 3).readValue 1 (rel (-4)) = .error ⟨.invalidAddress, 1, -1⟩ := ⟨rfl, rfl⟩

/-- For JT and JF alike: both parameters resolve, with a condition that is 0 or not and a target at 0 or at -1; or the first
or the second does not. -/
theorem witness_F2R_clauses :
    ((machine []).readValue 1 (imm 1) = .ok 1 ∧ (machine []).readValue 1 (pos 9) = .ok 0 ∧
      (machine []).readValue 2 (imm 0) = .ok 0 ∧ (machine []).readValue 2 (imm (-1)) = .ok (-1) ∧
      (1 : Int) ≠ 0 ∧ (0 : Int) ≤ 0 ∧ (-1 : Int) < 0) ∧
    (machine []).readValue 1 (bad 9 0) = .error ⟨.invalidAddressingMode, 1, 9⟩ ∧
    (machine []).readValue 2 (pos (-1)) = .error ⟨.invalidAddress, 2, -1⟩ :=
  ⟨⟨rfl, rfl, rfl, rfl, by decide, by decide, by decide⟩, rfl, rfl⟩

theorem witness_Hlt : (0 : Int) ≤ 99 ∧ (99 : Int) % 100 = 99 ∧ (199 : Int) % 100 = 99 ∧ (after (machine [99])).status = .halted := by
  decide

/-- A store at address 0, and a target that does not resolve. -/
theorem witness_StoringFormsFrame :
    exec (.add (pos 0) (pos 0) (pos 0)) (machine [1, 0, 0, 0, 99]) = .next (after (machine [1, 0, 0, 0, 99])) ∧
    (machine [1, 0, 0, 0, 99]).effAddr 3 (pos 0) = .ok 0 ∧ (1 : Nat) ≠ 0 ∧
    exec (.eq (imm 1) (imm 1) (imm 0)) (machine [11108, 1, 1, 0]) = .next (after (machine [11108, 1, 1, 0])) ∧
    (machine [11108, 1, 1, 0]).effAddr 3 (imm 0) = .error ⟨.invalidAddressingMode, 3, 1⟩ :=
  ⟨rfl, rfl, by decide, rfl, rfl⟩

theorem witness_InputFrame :
    exec (.inp (pos 0)) (machine [3, 0] [42]) = .next (after (machine [3, 0] [42])) ∧
    (machine [3, 0] [42]).effAddr 1 (pos 0) = .ok 0 ∧ (1 : Nat) ≠ 0 ∧
    exec (.inp (pos 5)) (machine [3, 5]) = .next (after (machine [3, 5])) ∧ (machine [3, 5]).inq = [] ∧
    exec (.inp (pos (-1))) (machine [3, -1]) = .next (after (machine [3, -1])) ∧
    (machine [3, -1]).effAddr 1 (pos (-1)) = .error ⟨.invalidAddress, 1, -1⟩ :=
  ⟨rfl, rfl, by decide, rfl, rfl, rfl, rfl⟩

theorem witness_NonStoringFormsFrame :
    exec (.out (pos 2)) (machine [4, 2, 77]) = .next (after (machine [4, 2, 77])) ∧
    exec (.jt (imm 1) (imm 7)) (machine [1105, 1, 7]) = .next (after (machine [1105, 1, 7])) ∧
    exec (.jf (imm 0) (imm 7)) (machine [1106, 0, 7]) = .next (after (machine [1106, 0, 7])) ∧
    exec (.arb (imm 19)) (machine [109, 19]) = .next (after (machine [109, 19])) ∧
    exec .hlt (machine [99]) = .next (after (machine [99])) := ⟨rfl, rfl, rfl, rfl, rfl⟩

/-- For InstructionPointerWriters, RelativeBaseWritersAndReaders, StatusTransitions and OutputOnlyGrows, which speak of a step:
one of each outcome (advance, jump, pause, halt, fault). -/
theorem witness_Steps :
    step (machine [104, 5]) = .next (after (machine [104, 5])) ∧ step (machine [1105, 1, 0]) = .next (machine [1105, 1, 0]) ∧
    step (machine [3, 5]) = .next (after (machine [3, 5])) ∧ step (machine [99]) = .next (after (machine [99])) ∧
    step (machine []) = .next (after (machine [])) := ⟨rfl, rfl, rfl, rfl, rfl⟩

theorem witness_RelativeBase :
    (∀ p ∈ (Instr.out (pos 2)).operands, p.mode ≠ .relative) ∧
      exec (.out (pos 2)) (machine [4, 2, 77]) = .next (after (machine [4, 2, 77])) := ⟨by decide, rfl⟩

theorem witness_ProgramCannotRead :
    exec (.out (pos 2)) (machine [4, 2, 77]) = .next (after (machine [4, 2, 77])) := rfl

theorem witness_StatusTransitions :
    Move (machine [99]) (after (machine [99])) ∧ Move (after (machine [3, 0])) ((after (machine [3, 0])).supply [1]) ∧
      Move (machine []) ((machine []).writeMem 0 1) ∧ (after (machine [3, 0])).status = .awaitingInput :=
  ⟨.step _ _ rfl, .supply _ _ rfl, .poke _ _ _, rfl⟩

theorem witness_FinishedMachines :
    (after (machine [99])).status.terminal = true ∧ (after (machine [])).status.terminal = true ∧
      Relation.ReflTransGen Move (after (machine [99])) ((after (machine [99])).writeMem 3 1) :=
  ⟨rfl, rfl, .single (.poke _ _ _)⟩

theorem witness_OutputGrows : Relation.ReflTransGen Move (machine [104, 5]) (after (machine [104, 5])) :=
  .single (.step _ _ rfl)

theorem witness_StepKeepsInv :
    (machine [1101, 1, -1, 0]).Inv ∧ step (machine [1101, 1, -1, 0]) = .next (after (machine [1101, 1, -1, 0])) ∧
      (machine []).Inv ∧ step (machine []) = .next (after (machine [])) := by
  refine ⟨?_, rfl, ?_, rfl⟩ <;> decide

theorem witness_Reachable : Reachable (after (machine [99])) := .move _ _ (.construct [99] []) (.step _ _ rfl)

theorem witness_MemoryIsItsReads :
    Memory.wf [(0, 5), (7, -1)] = true ∧ (∀ a, Memory.read [(0, 5), (7, -1)] a = Memory.read [(0, 5), (7, -1)] a) :=
  ⟨rfl, fun _ => rfl⟩

theorem witness_canonical_memory : (machine [1, 0, 3]).mem.wf = true ∧ (machine [1, 0, 3]).mem = [(0, 1), (2, 3)] := by decide

theorem witness_Run :
    ((machine [99]).status = .running ∧ stepBody (machine [99]) = .next (after (machine [99]))) ∧
    (after (machine [3, 0])).status = .awaitingInput ∧ (after (machine [99])).status = .halted ∧
    ((after (machine [])).status = .faulted ∧ (after (machine [])).fault = some ⟨.invalidOpcode, 1, 0, 0, 0, 0⟩) :=
  ⟨⟨rfl, rfl⟩, rfl, rfl, rfl, rfl⟩

theorem witness_RunReturns :
    hostRun 1 (machine [99]) = some (.status .halted, after (machine [99])) ∧ (after (machine [99])).status ≠ .faulted ∧
    hostRun 1 (machine []) = some (.fault ⟨.invalidOpcode, 1, 0, 0, 0, 0⟩, after (machine [])) ∧
    (after (machine [])).fault = some ⟨.invalidOpcode, 1, 0, 0, 0, 0⟩ ∧ 1 ≤ 1 :=
  ⟨rfl, by decide, rfl, rfl, by decide⟩

/-- The four statuses in which `resume` is stated. -/
theorem witness_Resume :
    (after (machine [99])).status = .halted ∧ (after (machine [])).status = .faulted ∧
      (after (machine [])).fault = some ⟨.invalidOpcode, 1, 0, 0, 0, 0⟩ ∧ (machine [99]).status = .running ∧
      (after (machine [3, 0])).status = .awaitingInput := ⟨rfl, rfl, rfl, rfl, rfl⟩

theorem witness_Observations : (0 : Int) ≤ 0 ∧ (-1 : Int) < 0 := by decide

theorem witness_PauseAndResume :
    (machine [3, 5]).status = .running ∧ (machine [3, 5]).fetch = .ok (.inp (pos 5)) ∧
      (machine [3, 5]).effAddr 1 (pos 5) = .ok 5 ∧ (machine [3, 5]).inq = [] := ⟨rfl, rfl, rfl, rfl⟩

theorem witness_HostErrors :
    serve 0 (.peek (-1)) (machine []) = some (.error .invalidAddress, machine []) ∧
    serve 0 (.resume [1]) (after (machine [99])) = some (.error .invalidState, after (machine [99])) := ⟨rfl, rfl⟩

theorem witness_Poke :
    (machine [1, 0, 3]).mem.wf = true ∧ (-1 : Int) < 0 ∧ (0 : Int) ≤ 0 ∧ ((machine [1, 0, 3]).ip : Int) = 0 := by decide

theorem witness_Faulted :
    (after (machine [])).status = .faulted ∧ (after (machine [])).fault = some ⟨.invalidOpcode, 1, 0, 0, 0, 0⟩ := ⟨rfl, rfl⟩

theorem witness_Instances :
    serveAt 0 1 (.poke 0 7) [machine [], machine [99]] = some (.done, [machine [], (machine [99]).writeMem 0 7]) ∧ 0 ≠ 1 :=
  ⟨rfl, by decide⟩

theorem witness_SelfJump :
    (machine [1105, 1, 0]).status = .running ∧ (machine [1105, 1, 0]).readValue 1 (imm 1) = .ok 1 ∧
    (machine [1105, 1, 0]).readValue 2 (imm 0) = .ok ((machine [1105, 1, 0]).ip : Int) ∧
    (machine [1105, 1, 0]).fetch = .ok (.jt (imm 1) (imm 0)) ∧ (1 : Int) ≠ 0 ∧
    (machine [1106, 0, 0]).readValue 1 (imm 0) = .ok 0 ∧ (machine [1106, 0, 0]).fetch = .ok (.jf (imm 0) (imm 0)) :=
  ⟨rfl, rfl, rfl, rfl, by decide, rfl, rfl⟩

theorem witness_PlacedWord : (machine [5, 6]).mem.wf = true ∧ decodeTableWord 8 99 = some .hlt := by decide

theorem witness_Pseudo :
    (AsmOperand.immediate (.number 7)).resolve [] = some (imm 7) ∧
      (AsmOperand.position (.label ['x'])).resolve [(['x'], 20)] = some (pos 20) ∧
      (AsmOperand.relativeMinus (.number 3)).resolve [] = some (rel (-3)) := by decide

theorem witness_Assembled :
    (AsmItem.instr .out [.immediate (.number 5)]).emit [] = some [104, 5] := by decide

/-- Each mode of a read parameter and of a target, with an address at 0. -/
theorem witness_StoringFormsComplete :
    (machine [] [] (-3)).CanRead (rel 3) ∧ (machine [] [] (-3)).CanRead (imm (-1)) ∧ (machine [] [] (-3)).CanRead (pos 0) ∧
      (machine [] [] (-3)).CanWrite (pos 0) ∧ (machine [] [] (-3)).CanWrite (rel 3) := by decide

theorem witness_OutAndArbComplete : (machine [] [] (-3)).CanRead (rel 3) ∧ (machine [] [] (-3)).CanRead (imm (-1)) := by decide

/-- A value waits; a condition that is 0 and one that is not; a target at 0. -/
theorem witness_InputJumpsAndHaltComplete :
    ((machine [3, 0] [42]).CanWrite (pos 0) ∧ (machine [3, 0] [42]).inq = 42 :: []) ∧
    ((machine []).CanRead (imm (-1)) ∧ (machine []).CanRead (pos 9) ∧ (machine []).valueOf (imm (-1)) ≠ 0 ∧
      (machine []).valueOf (pos 9) = 0 ∧ 0 ≤ (machine []).valueOf (pos 9)) := by decide

/-- Log entry 7: a `.word` value that is a label emits its address. -/
theorem test_assemble_word_label : assembleText ".word x, 7\nx: HLT".toList = some [2, 7, 99] := by decide

/-- Log entry 7: a label defined twice is refused where a value uses it and accepted where none does. -/
theorem test_assemble_label_twice :
    assembleText "x: HLT\nx: OUT #x".toList = none ∧ assembleText "x: HLT\nx: HLT".toList = some [99, 99] := by decide

end Sys2Proof.Tests
end

section
/-!
PROOFS. What one instruction can do, said once; with it the two statements of 10_state.md on the relative base (R19) and on
the status (R22).
-/
namespace Sys2Proof.Machine

/-! What an instruction that raises no fault does -/

/-- `Completes s i t`: at `s` the parameters of the instruction `i` resolve and `i` can leave `t`. One constructor per kind
of effect; the value a storing form writes is left open. `exec_cases` ties it to `exec`. -/
inductive Completes (s : State) : Instr → State → Prop where
  | store {i : Instr} {a b c : Operand} {x y : Int} {adr : Nat} (v : Int)
      (hi : i ∈ [Instr.add a b c, .mul a b c, .lt a b c, .eq a b c]) (hx : s.readValue 1 a = .ok x)
      (hy : s.readValue 2 b = .ok y) (hadr : s.effAddr 3 c = .ok adr) :
      Completes s i ((s.writeMem adr v).advance 3)
  | pause {a : Operand} {adr : Nat} (hadr : s.effAddr 1 a = .ok adr) (hq : s.inq = []) :
      Completes s (.inp a) (s.withStatus .awaitingInput)
  | input {a : Operand} {adr : Nat} {v : Int} {q : List Int} (hadr : s.effAddr 1 a = .ok adr) (hq : s.inq = v :: q) :
      Completes s (.inp a) (((s.withInq q).writeMem adr v).advance 1)
  | output {a : Operand} {v : Int} (hv : s.readValue 1 a = .ok v) : Completes s (.out a) ((s.emit v).advance 1)
  | jump {i : Instr} {a b : Operand} {x y : Int} (hi : (i = .jt a b ∧ x ≠ 0) ∨ (i = .jf a b ∧ x = 0))
      (hx : s.readValue 1 a = .ok x) (hy : s.readValue 2 b = .ok y) (hy0 : 0 ≤ y) : Completes s i (s.jumpTo y.toNat)
  | fallThrough {i : Instr} {a b : Operand} {x y : Int} (hi : (i = .jt a b ∧ x = 0) ∨ (i = .jf a b ∧ x ≠ 0))
      (hx : s.readValue 1 a = .ok x) (hy : s.readValue 2 b = .ok y) : Completes s i (s.advance 2)
  | adjustBase {a : Operand} {v : Int} (hv : s.readValue 1 a = .ok v) : Completes s (.arb a) ((s.addRb v).advance 1)
  | halt : Completes s .hlt ((s.withStatus .halted).advance 0)

/-- A storing form enters a fault or stores. -/
theorem State.binary_completes {s t : State} {i : Instr} {f : Int → Int → Int} {a b c : Operand}
    (hi : i ∈ [Instr.add a b c, .mul a b c, .lt a b c, .eq a b c]) (h : s.binary f a b c = .next t) :
    (∃ r, t = s.enterFault r) ∨ Completes s i t := by
  obtain ⟨r, -, ht⟩ | ⟨x, y, adr, hx, hy, hadr, ht⟩ := State.binary_cases h
  · cases ht; exact .inl ⟨r, rfl⟩
  · cases ht; exact .inr (.store _ hi hx hy hadr)

/-- IN enters a fault, pauses or takes the head of the queue. -/
theorem execInp_completes {s t : State} {a : Operand} (h : execInp a s = .next t) :
    (∃ r, t = s.enterFault r) ∨ Completes s (.inp a) t := by
  obtain ⟨r, -, ht⟩ | ⟨adr, hadr, ht⟩ := State.withTarget_cases h
  · cases ht; exact .inl ⟨r, rfl⟩
  · split at ht
    next hq => cases ht; exact .inr (.pause hadr hq)
    next v q hq => cases ht; exact .inr (.input hadr hq)

/-- A jump, whose condition on parameter 1 is `taken`, enters a fault, jumps or falls through. -/
theorem State.jump_completes {s t : State} {i : Instr} {a b : Operand} {taken : Int → Bool}
    (htaken : ∀ x, taken x = true → (i = .jt a b ∧ x ≠ 0) ∨ (i = .jf a b ∧ x = 0))
    (hnot : ∀ x, taken x = false → (i = .jt a b ∧ x = 0) ∨ (i = .jf a b ∧ x ≠ 0))
    (h : (s.withRead 1 a fun x => s.withRead 2 b fun y => s.branch (taken x) y) = .next t) :
    (∃ r, t = s.enterFault r) ∨ Completes s i t := by
  obtain ⟨r, -, ht⟩ | ⟨x, hx, h⟩ := State.withRead_cases h
  · cases ht; exact .inl ⟨r, rfl⟩
  obtain ⟨r, -, ht⟩ | ⟨y, hy, h⟩ := State.withRead_cases h.symm
  · cases ht; exact .inl ⟨r, rfl⟩
  obtain ⟨-, -, ht⟩ | ⟨hx0, hy0, ht⟩ | ⟨hx0, ht⟩ := State.branch_cases h.symm
  · cases ht; exact .inl ⟨_, rfl⟩
  · cases ht; exact .inr (.jump (htaken x hx0) hx hy hy0)
  · cases ht; exact .inr (.fallThrough (hnot x hx0) hx hy)

/-- An instruction enters a fault or completes. -/
theorem exec_cases {i : Instr} {s t : State} (h : exec i s = .next t) :
    (∃ r, t = s.enterFault r) ∨ Completes s i t := by
  cases i with
  | add a b c => exact State.binary_completes (by simp) h
  | mul a b c => exact State.binary_completes (by simp) h
  | lt a b c => exact State.binary_completes (by simp) h
  | eq a b c => exact State.binary_completes (by simp) h
  | inp a => exact execInp_completes h
  | out a =>
    obtain ⟨r, -, ht⟩ | ⟨v, hv, ht⟩ := State.withRead_cases h
    · cases ht; exact .inl ⟨r, rfl⟩
    · cases ht; exact .inr (.output hv)
  | arb a =>
    obtain ⟨r, -, ht⟩ | ⟨v, hv, ht⟩ := State.withRead_cases h
    · cases ht; exact .inl ⟨r, rfl⟩
    · cases ht; exact .inr (.adjustBase hv)
  | jt a b =>
    exact State.jump_completes (fun x hx => .inl ⟨rfl, by simpa using hx⟩) (fun x hx => .inl ⟨rfl, by simpa using hx⟩) h
  | jf a b =>
    exact State.jump_completes (fun x hx => .inr ⟨rfl, by simpa using hx⟩) (fun x hx => .inr ⟨rfl, by simpa using hx⟩) h
  | hlt => cases h; exact .inr .halt

/-- A step enters a fault or completes the fetched instruction. -/
theorem step_completes {s t : State} (h : step s = .next t) :
    (∃ r, t = s.enterFault r) ∨ ∃ i, s.fetch = .ok i ∧ Completes s i t := by
  obtain ⟨-, ⟨d, -, ht⟩ | ⟨i, hi, h⟩⟩ := step_cases h
  · exact .inl ⟨_, ht⟩
  · exact (exec_cases h).imp_right fun hc => ⟨i, hi, hc⟩

/-- A Running machine whose words decode runs the instruction. -/
theorem step_of_fetch {s : State} {i : Instr} (hs : s.status = .running) (hi : s.fetch = .ok i) : step s = exec i s := by
  simp only [step_running hs, stepBody, hi]

/-! The relative base (R19) -/

/-- A parameter that is not in relative mode reads the same from every relative base. -/
theorem State.readValue_addRb {p : Operand} (hp : p.mode ≠ .relative) (s : State) (d : Int) (k : Nat) :
    (s.addRb d).readValue k p = s.readValue k p := by
  obtain ⟨m, raw⟩ := p
  cases m with
  | relative => exact absurd rfl hp
  | position => rfl
  | immediate => rfl
  | unrecognized _ => rfl

/-- A target that is not in relative mode is the same address from every relative base. -/
theorem State.effAddr_addRb {p : Operand} (hp : p.mode ≠ .relative) (s : State) (d : Int) (k : Nat) :
    (s.addRb d).effAddr k p = s.effAddr k p := by
  obtain ⟨m, raw⟩ := p
  cases m with
  | relative => exact absurd rfl hp
  | position => rfl
  | immediate => rfl
  | unrecognized _ => rfl

/-- Two adjustments of the relative base commute. -/
theorem State.addRb_comm (s : State) (v d : Int) : (s.addRb d).addRb v = (s.addRb v).addRb d := by
  simp only [State.addRb, add_right_comm]

section Shift
variable {s t : State} {d : Int}

/-- Reading a parameter that is not in relative mode carries an adjusted base along, if what follows does. -/
theorem State.withRead_addRb {k : Nat} {p : Operand} {go go' : Int → Answer} (hp : p.mode ≠ .relative)
    (hgo : ∀ v, go v = .next t → go' v = .next (t.addRb d)) (h : s.withRead k p go = .next t) :
    (s.addRb d).withRead k p go' = .next (t.addRb d) := by
  have hread := State.readValue_addRb hp s d k
  obtain ⟨r, hr, ht⟩ | ⟨v, hv, ht⟩ := State.withRead_cases h
  · cases ht; exact State.withRead_error go' (hread.trans hr)
  · exact (State.withRead_ok go' (hread.trans hv)).trans (hgo v ht.symm)

/-- Resolving a target that is not in relative mode carries an adjusted base along, if what follows does. -/
theorem State.withTarget_addRb {k : Nat} {p : Operand} {go go' : Nat → Answer} (hp : p.mode ≠ .relative)
    (hgo : ∀ adr, go adr = .next t → go' adr = .next (t.addRb d)) (h : s.withTarget k p go = .next t) :
    (s.addRb d).withTarget k p go' = .next (t.addRb d) := by
  have haddr := State.effAddr_addRb hp s d k
  obtain ⟨r, hr, ht⟩ | ⟨adr, hadr, ht⟩ := State.withTarget_cases h
  · cases ht; exact State.withTarget_error go' (haddr.trans hr)
  · exact (State.withTarget_ok go' (haddr.trans hadr)).trans (hgo adr ht.symm)

/-- A storing form without a relative-mode parameter carries an adjusted base along. -/
theorem State.binary_addRb {f : Int → Int → Int} {a b c : Operand} (hp : ∀ p ∈ [a, b, c], p.mode ≠ .relative)
    (h : s.binary f a b c = .next t) : (s.addRb d).binary f a b c = .next (t.addRb d) := by
  obtain ⟨ha, hb, hc⟩ : a.mode ≠ .relative ∧ b.mode ≠ .relative ∧ c.mode ≠ .relative := by simpa using hp
  refine State.withRead_addRb ha (fun x => ?_) h
  refine State.withRead_addRb hb (fun y => ?_)
  refine State.withTarget_addRb hc (fun adr ht => ?_)
  cases ht; rfl

/-- A jump on known values carries an adjusted base along. -/
theorem State.branch_addRb {taken : Bool} {target : Int} (h : s.branch taken target = .next t) :
    (s.addRb d).branch taken target = .next (t.addRb d) := by
  obtain ⟨rfl, hneg, ht⟩ | ⟨rfl, hpos, ht⟩ | ⟨rfl, ht⟩ := State.branch_cases h
  · cases ht; rw [State.branch, if_pos rfl, if_pos hneg]; rfl
  · cases ht; rw [State.branch, if_pos rfl, if_neg (not_lt.2 hpos)]; rfl
  · cases ht; rfl

/-- A jump without a relative-mode parameter carries an adjusted base along. -/
theorem State.jump_addRb {taken : Int → Bool} {a b : Operand} (hp : ∀ p ∈ [a, b], p.mode ≠ .relative)
    (h : (s.withRead 1 a fun x => s.withRead 2 b fun y => s.branch (taken x) y) = .next t) :
    ((s.addRb d).withRead 1 a fun x => (s.addRb d).withRead 2 b fun y => (s.addRb d).branch (taken x) y) =
      .next (t.addRb d) := by
  obtain ⟨ha, hb⟩ : a.mode ≠ .relative ∧ b.mode ≠ .relative := by simpa using hp
  exact State.withRead_addRb ha (fun _ => State.withRead_addRb hb fun _ => State.branch_addRb) h

/-- IN without a relative-mode target carries an adjusted base along. -/
theorem execInp_addRb {a : Operand} (ha : a.mode ≠ .relative) (h : execInp a s = .next t) :
    execInp a (s.addRb d) = .next (t.addRb d) := by
  refine State.withTarget_addRb ha (fun adr ht => ?_) h
  simp only [State.addRb_inq]
  split at ht <;> cases ht <;> rfl

/-- An instruction without a relative-mode parameter carries an adjusted base along. -/
theorem exec_addRb {i : Instr} (hi : ∀ p ∈ i.operands, p.mode ≠ .relative) (h : exec i s = .next t) :
    exec i (s.addRb d) = .next (t.addRb d) := by
  cases i with
  | add a b c => exact State.binary_addRb hi h
  | mul a b c => exact State.binary_addRb hi h
  | lt a b c => exact State.binary_addRb hi h
  | eq a b c => exact State.binary_addRb hi h
  | inp a => exact execInp_addRb (hi a (List.mem_singleton_self a)) h
  | out a =>
    refine State.withRead_addRb (hi a (List.mem_singleton_self a)) (fun v ht => ?_) h
    cases ht; rfl
  | arb a =>
    refine State.withRead_addRb (hi a (List.mem_singleton_self a)) (fun v ht => ?_) h
    cases ht; rw [State.addRb_comm]; rfl
  | jt a b => exact State.jump_addRb hi h
  | jf a b => exact State.jump_addRb hi h
  | hlt => cases h; rfl

end Shift

/-- A step leaves the relative base, or runs ARB, which adds its parameter. -/
theorem step_rb {s t : State} (h : step s = .next t) :
    t.rb = s.rb ∨ ∃ a v, s.fetch = .ok (.arb a) ∧ s.readValue 1 a = .ok v ∧ t.rb = s.rb + v := by
  obtain ⟨r, rfl⟩ | ⟨i, hi, hc⟩ := step_completes h
  · exact .inl rfl
  cases hc with
  | adjustBase hv => exact .inr ⟨_, _, hi, hv, rfl⟩
  | _ => exact .inl rfl

/-- Settles O30: a step by the case of the fetched instruction, the reader clause by two runs from bases `d` apart. -/
theorem relativeBaseWritersAndReaders : Obligations.RelativeBaseWritersAndReaders :=
  ⟨fun _ _ => step_rb, fun _ _ _ _ => exec_addRb, fun _ _ _ _ => ⟨rfl, rfl⟩, fun _ _ => rfl⟩

/-! The status (R22) -/

/-- What a completed instruction leaves as the status: AwaitingInput at the pause, Halted after HLT, else the same. -/
theorem Completes.status_cases {s t : State} {i : Instr} (h : Completes s i t) :
    (t.status = .awaitingInput ∧ (∃ a adr, i = .inp a ∧ s.effAddr 1 a = .ok adr) ∧ s.inq = []) ∨
    (t.status = .halted ∧ i = .hlt) ∨ t.status = s.status := by
  cases h with
  | pause hadr hq => exact .inl ⟨rfl, ⟨_, _, rfl, hadr⟩, hq⟩
  | halt => exact .inr (.inl ⟨rfl, rfl⟩)
  | _ => exact .inr (.inr rfl)

/-- IN with a target that resolves and an empty queue pauses. -/
theorem execInp_pause {s : State} {a : Operand} {adr : Nat} (hadr : s.effAddr 1 a = .ok adr) (hq : s.inq = []) :
    execInp a s = .next (s.withStatus .awaitingInput) := by
  rw [execInp, State.withTarget_ok _ hadr, hq]

/-- The status a step leaves, with what makes it. -/
theorem step_status_cases {s t : State} (h : step s = .next t) :
    (t.status = .awaitingInput ∧ ∃ a adr, s.fetch = .ok (.inp a) ∧ s.effAddr 1 a = .ok adr ∧ s.inq = []) ∨
    (t.status = .halted ∧ s.fetch = .ok .hlt) ∨ (t.status = .faulted ∧ ∃ r, t = s.enterFault r) ∨
    t.status = .running := by
  obtain ⟨r, rfl⟩ | ⟨i, hi, hc⟩ := step_completes h
  · exact .inr (.inr (.inl ⟨rfl, r, rfl⟩))
  obtain ⟨ht, ⟨a, adr, rfl, hadr⟩, hq⟩ | ⟨ht, rfl⟩ | ht := hc.status_cases
  · exact .inl ⟨ht, a, adr, hi, hadr, hq⟩
  · exact .inr (.inl ⟨ht, hi⟩)
  · exact .inr (.inr (.inr (ht.trans (step_cases h).1)))

section
variable {s t : State} (h : step s = .next t)
include h

/-- A step pauses exactly at IN with a target that resolves and an empty queue. -/
theorem step_awaitingInput_iff : t.status = .awaitingInput ↔
    ∃ a adr, s.fetch = .ok (.inp a) ∧ s.effAddr 1 a = .ok adr ∧ s.inq = [] := by
  constructor
  · intro ht; simpa [ht] using step_status_cases h
  · rintro ⟨a, adr, hi, hadr, hq⟩
    cases h.symm.trans ((step_of_fetch (step_cases h).1 hi).trans (execInp_pause hadr hq))
    rfl

/-- A step halts exactly at HLT. -/
theorem step_halted_iff : t.status = .halted ↔ s.fetch = .ok .hlt := by
  constructor
  · intro ht; simpa [ht] using step_status_cases h
  · intro hi
    cases h.symm.trans (step_of_fetch (step_cases h).1 hi)
    rfl

/-- A step faults exactly by fault entry. -/
theorem step_faulted_iff : t.status = .faulted ↔ ∃ r : Raise, t = s.enterFault r := by
  constructor
  · intro ht; simpa [ht] using step_status_cases h
  · rintro ⟨r, rfl⟩; rfl

end

/-- A move keeps the status or makes a transition of R22's list. -/
theorem Move.status_legal {s t : State} (h : Move s t) : t.status = s.status ∨ s.status.legalNext t.status = true := by
  cases h with
  | step _ h => rw [(step_cases h).1]; exact .inr rfl
  | supply values hs =>
    rw [State.supply_status]
    split
    next ha => rw [ha]; exact .inr rfl
    next => exact .inl rfl
  | poke a v => exact .inl rfl

/-- Settles O32: moves by their kind, the cause of each status by the case of the fetched instruction. -/
theorem statusTransitions : Obligations.StatusTransitions :=
  ⟨fun _ _ => Move.status_legal,
    fun _ _ h => ⟨(step_cases h).1, step_awaitingInput_iff h, step_halted_iff h, step_faulted_iff h⟩,
    fun _ values hs => by rw [State.supply_status, if_pos hs]⟩

end Sys2Proof.Machine
end

section
/-!
PROOFS. The two statements of 30_encoding.md on the digits a decoder does not examine (R50) and on the pseudo-instructions
(R59), with the lemmas on the decoder's digits and on the assembler that they rest on.
-/
namespace Sys2Proof

/-! What the decoder reads of a word -/

/-- A digit below the weight of a modulus survives the reduction. -/
theorem digit_mod_pow {k m : Nat} (hk : k < m) (w : Nat) : digit k (w % 10 ^ m) = digit k w := by
  obtain ⟨j, rfl⟩ := Nat.exists_eq_add_of_lt hk
  have hsplit : 10 ^ (k + j + 1) = 10 ^ k * 10 ^ (j + 1) := by rw [Nat.add_assoc, Nat.pow_add]
  rw [digit, digit, hsplit, Nat.mod_mul_right_div_self, Nat.mod_mod_of_dvd _ (dvd_pow_self 10 j.succ_ne_zero)]

/-- The mode digits of `n` parameters are digits of weight below `10 ^ (n + 2)` (R49). -/
theorem modeDigits_mod_pow (n w : Nat) : modeDigits n (w % 10 ^ (n + 2)) = modeDigits n w := by
  refine List.map_congr_left fun j hj => digit_mod_pow ?_ w
  have hjn : j < n := List.mem_range.mp hj
  omega

/-- The opcode field is the remainder by 100 (R48). -/
theorem dec_one_zero (w : Nat) : dec 1 0 w = w % 100 := by simp [dec]

@[simp] theorem Opcode.ofNumber?_number (op : Opcode) : Opcode.ofNumber? op.number = some op := by cases op <;> rfl

/-- A non-negative word with a recognised opcode field is decoded (R48, R62). -/
theorem decodeWord_of_number {w : Int} {op : Opcode} (hw : 0 ≤ w) (hop : w % 100 = op.number) :
    decodeWord w = .ok (op, modeDigits op.nparams w.toNat) := by
  have hfield : dec 1 0 w.toNat = op.number := by rw [dec_one_zero]; omega
  simp [decodeWord, hfield, Int.not_lt.mpr hw]

/-- Settles O3: the modulus is a multiple of 100, so the opcode field agrees, and it covers every mode digit the opcode
has. -/
theorem unusedDigitsAreNotExamined : Obligations.UnusedDigitsAreNotExamined := by
  intro op w w' raw hw hw' hop hmod
  have hop' : w' % 100 = op.number := by
    have hdvd : (100 : Int) ∣ 10 ^ (op.nparams + 2) := pow_dvd_pow 10 (Nat.le_add_left 2 op.nparams)
    rw [← hop, ← Int.emod_emod_of_dvd w hdvd, hmod, Int.emod_emod_of_dvd w' hdvd]
  have hnat : w.toNat % 10 ^ (op.nparams + 2) = w'.toNat % 10 ^ (op.nparams + 2) := by
    zify
    rwa [Int.toNat_of_nonneg hw, Int.toNat_of_nonneg hw']
  have hdigits : modeDigits op.nparams w.toNat = modeDigits op.nparams w'.toNat := by
    rw [← modeDigits_mod_pow, hnat, modeDigits_mod_pow]
  rw [decodeWith, decodeWith, decodeWord_of_number hw hop, decodeWord_of_number hw' hop', hdigits]

/-! What the assembler emits -/

@[simp] theorem allSome_map_some {α : Type} (xs : List α) : allSome (xs.map some) = some xs := by
  induction xs with
  | nil => rfl
  | cons x xs ih => simp [allSome, ih]

@[simp] theorem AsmOperand.resolve_immediate_number (labels : List (List Char × Nat)) (n : Int) :
    (AsmOperand.immediate (.number n)).resolve labels = some ⟨.immediate, n⟩ := rfl

/-- An instruction line whose operands resolve, as many as its opcode has, emits the canonical words (R58). -/
theorem AsmItem.emit_instr {labels : List (List Char × Nat)} {op : Opcode} {ps : List AsmOperand} {qs : List Operand}
    (hps : ps.map (AsmOperand.resolve labels) = qs.map some) (hlen : qs.length = op.nparams) :
    (AsmItem.instr op ps).emit labels =
      some (encode (Instr.build op fun k => qs.getD (k - 1) { mode := .position, raw := 0 })) := by
  simp [AsmItem.emit, AsmItem.expand, hps, hlen]

/-- JMP is assembled as JT with the condition `#1` (R59). -/
theorem AsmItem.emit_jmp {labels : List (List Char × Nat)} {t : AsmOperand} {pt : Operand}
    (ht : t.resolve labels = some pt) : (AsmItem.jmp t).emit labels = some (encode (.jt ⟨.immediate, 1⟩ pt)) :=
  AsmItem.emit_instr (op := .jt) (ps := [.immediate (.number 1), t]) (qs := [⟨.immediate, 1⟩, pt])
    (by simp [ht]) rfl

/-- MOV is assembled as ADD with the second addend `#0` (R59). -/
theorem AsmItem.emit_mov {labels : List (List Char × Nat)} {s d : AsmOperand} {ps pd : Operand}
    (hs : s.resolve labels = some ps) (hd : d.resolve labels = some pd) :
    (AsmItem.mov s d).emit labels = some (encode (.add ps ⟨.immediate, 0⟩ pd)) :=
  AsmItem.emit_instr (op := .add) (ps := [s, .immediate (.number 0), d]) (qs := [ps, ⟨.immediate, 0⟩, pd])
    (by simp [hs, hd]) rfl

/-- The canonical word of an opcode with two parameters (R55). -/
theorem encodeWord_two (op : Opcode) (m₁ m₂ : Nat) :
    encodeWord op [m₁, m₂] = op.number + 100 * (m₁ : Int) + 1000 * m₂ := by
  simp only [encodeWord, ofDigits]; omega

/-- The canonical word of an opcode with three parameters (R55). -/
theorem encodeWord_three (op : Opcode) (m₁ m₂ m₃ : Nat) :
    encodeWord op [m₁, m₂, m₃] = op.number + 100 * (m₁ : Int) + 1000 * m₂ + 10000 * m₃ := by
  simp only [encodeWord, ofDigits]; omega

/-- Settles O53: each pseudo-instruction emits the encoding of the instruction it expands to, whose first word R55 gives. -/
theorem pseudoInstructionsExpand : Obligations.PseudoInstructionsExpand := by
  intro labels s d t ps pd pt hs hd ht
  constructor
  · have hword : encodeWord .jt [1, pt.mode.toDigit] = 105 + 1000 * (pt.mode.toDigit : Int) :=
      encodeWord_two .jt 1 pt.mode.toDigit
    rw [AsmItem.emit_jmp ht, ← hword]
    rfl
  · have hword : encodeWord .add [ps.mode.toDigit, 1, pd.mode.toDigit] =
        1001 + 100 * (ps.mode.toDigit : Int) + 10000 * pd.mode.toDigit := by
      rw [encodeWord_three, Opcode.number]; omega
    rw [AsmItem.emit_mov hs hd, ← hword]
    rfl

end Sys2Proof
end

section
/-!
PROOFS. The five statements of 40_execution_cycle.md: what the decoder answers for every word (R62), the two resolvers in
every mode (R64, R65), the order of faults (R66) and the frame of a faulting step (R71).
-/
namespace Sys2Proof

/-! The decoder's answer by the digits of a word (R48, R49, R62) -/

/-- The opcode map: each opcode with its number and the number of its parameters (R54). -/
def opcodeMap : List (Opcode × Int × Nat) :=
  [(.add, 1, 3), (.mul, 2, 3), (.inp, 3, 1), (.out, 4, 1), (.jt, 5, 2), (.jf, 6, 2), (.lt, 7, 3), (.eq, 8, 3),
    (.arb, 9, 1), (.hlt, 99, 0)]

/-- The opcode map lists what `Opcode.number` and `Opcode.nparams` answer. -/
theorem opcodeMap_entry {op : Opcode} {num : Int} {n : Nat} (h : (op, num, n) ∈ opcodeMap) :
    num = op.number ∧ n = op.nparams :=
  (by decide : ∀ e ∈ opcodeMap, e.2.1 = e.1.number ∧ e.2.2 = e.1.nparams) _ h

/-- The numbers the decoder recognises are among the listed ones (R48). -/
theorem Opcode.number_mem (op : Opcode) : (op.number : Int) ∈ ([1, 2, 3, 4, 5, 6, 7, 8, 9, 99] : List Int) := by
  cases op <;> decide

/-- A recognised number is the number of the opcode it names. -/
theorem Opcode.number_of_ofNumber? {n : Nat} {op : Opcode} (h : Opcode.ofNumber? n = some op) : op.number = n := by
  unfold Opcode.ofNumber? at h
  split at h <;> cases h <;> rfl

/-- A negative word is rejected with itself as detail (decision D8). -/
theorem decodeWord_of_neg {w : Int} (hw : w < 0) : decodeWord w = .error w := if_pos hw

/-- A non-negative word whose opcode field is no opcode's number is rejected with that field as detail (R48). -/
theorem decodeWord_of_no_number {w : Int} (hw : 0 ≤ w) (hno : ∀ op : Opcode, w % 100 ≠ op.number) :
    decodeWord w = .error (w % 100) := by
  have hfield : ((dec 1 0 w.toNat : Nat) : Int) = w % 100 := by rw [dec_one_zero]; omega
  have hnone : Opcode.ofNumber? (dec 1 0 w.toNat) = none := by
    refine Option.eq_none_iff_forall_ne_some.mpr fun op hop => hno op ?_
    rw [← hfield, Opcode.number_of_ofNumber? hop]
  simp only [decodeWord, if_neg (not_lt.mpr hw), hnone, hfield]

@[simp] theorem length_modeDigits (n w : Nat) : (modeDigits n w).length = n := by simp [modeDigits]

/-- The digit of parameter `k` is the decimal digit of weight `10 ^ (k + 1)` (R49). -/
theorem modeDigits_getElem? {n k : Nat} (w : Nat) (hk : 1 ≤ k) (hkn : k ≤ n) :
    (modeDigits n w)[k - 1]? = some (w / 10 ^ (k + 1) % 10) := by
  obtain ⟨j, rfl⟩ := Nat.exists_eq_add_of_le' hk
  simp [modeDigits, digit, List.getElem?_range hkn]

/-- Settles O2: the sign of the word, then whether its opcode field is an opcode's number. -/
theorem decodeWordFollowsTheDigits : Obligations.DecodeWordFollowsTheDigits := by
  intro w
  refine ⟨decodeWord_of_neg, fun hw hno => decodeWord_of_no_number hw fun op hop => hno (hop ▸ op.number_mem), ?_⟩
  intro op num n hmem hw hnum
  obtain ⟨rfl, rfl⟩ := opcodeMap_entry hmem
  refine ⟨_, decodeWord_of_number hw hnum, length_modeDigits _ _, fun k hk hkn => ?_⟩
  rw [modeDigits_getElem? _ hk hkn]
  lift w to ℕ using hw
  rfl

end Sys2Proof

namespace Sys2Proof.Machine

/-! A parameter in every mode (R64, R65) -/

theorem State.readAddr_of_nonneg (s : State) (k : Nat) {addr : Int} (h : 0 ≤ addr) :
    s.readAddr k addr = .ok (s.mem.read addr.toNat) := if_neg (not_lt.mpr h)

theorem State.readAddr_of_neg (s : State) (k : Nat) {addr : Int} (h : addr < 0) :
    s.readAddr k addr = .error ⟨.invalidAddress, k, addr⟩ := if_pos h

theorem checkAddr_of_nonneg (k : Nat) {addr : Int} (h : 0 ≤ addr) : checkAddr k addr = .ok addr.toNat :=
  if_neg (not_lt.mpr h)

theorem checkAddr_of_neg (k : Nat) {addr : Int} (h : addr < 0) :
    checkAddr k addr = .error ⟨.invalidAddress, k, addr⟩ := if_pos h

/-- Settles O12: position and relative mode read the address they name, the other modes answer without memory. -/
theorem readParameterInEveryMode : Obligations.ReadParameterInEveryMode := fun s k _ =>
  ⟨s.readAddr_of_nonneg k, s.readAddr_of_neg k, rfl, s.readAddr_of_nonneg k, s.readAddr_of_neg k, fun _ => rfl⟩

/-- Settles O13: position and relative mode check the address they name, the other modes are refused. -/
theorem writeTargetInEveryMode : Obligations.WriteTargetInEveryMode := fun _ k _ =>
  ⟨checkAddr_of_nonneg k, checkAddr_of_neg k, rfl, checkAddr_of_nonneg k, checkAddr_of_neg k, fun _ => rfl⟩

/-! A step that faults (R71, R104) -/

theorem FaultKind.code_cases (κ : FaultKind) :
    (κ = .invalidOpcode ∧ κ.code = 1) ∨ (κ = .invalidAddressingMode ∧ κ.code = 2) ∨
      (κ = .invalidAddress ∧ κ.code = 3) := by
  cases κ <;> decide

/-- A step that answers a next state is reported to the host by that state (R92). -/
theorem hostStep_of_next {s t : State} (h : step s = .next t) : hostStep s = (t.report, t) := by
  simp only [hostStep, h]

/-- Settles O11: a step faults by fault entry alone, which writes the status and the record. -/
theorem faultsArePrecise : Obligations.FaultsArePrecise := by
  intro s t h ht
  obtain ⟨r, rfl⟩ := (step_faulted_iff h).mp ht
  exact ⟨_, rfl, rfl, rfl, r.kind.code_cases, hostStep_of_next h⟩

/-! The order of faults (R66, decision D11) -/

/-- `t` is the fault of a taken jump whose target is negative, the one fault an instruction raises after its parameters have
resolved (R80, R81). -/
def JumpFault (i : Instr) (s t : State) : Prop :=
  ∃ a b x y, ((i = .jt a b ∧ x ≠ 0) ∨ (i = .jf a b ∧ x = 0)) ∧ s.readValue 1 a = .ok x ∧
    s.readValue 2 b = .ok y ∧ y < 0 ∧ t = s.enterFault ⟨.invalidAddress, 2, y⟩

/-- `ans` is fault entry with the first fault that the parameters `ps`, numbered from `k`, raise; where they raise none, a
fault in it satisfies `late`. -/
def State.ReportsFirst (s : State) (late : State → Prop) (k : Nat) (ps : List (Role × Operand)) (ans : Answer) : Prop :=
  (∀ r, s.firstRaise k ps = some r → ans = .next (s.enterFault r)) ∧
    (s.firstRaise k ps = none → s.status ≠ .faulted → ∀ t, ans = .next t → t.status = .faulted → late t)

section
variable {s : State} {late : State → Prop} {k : Nat} {p : Operand} {ps : List (Role × Operand)}

/-- With no parameter left, only late faults count. -/
theorem State.reportsFirst_nil {ans : Answer}
    (h : s.status ≠ .faulted → ∀ t, ans = .next t → t.status = .faulted → late t) : s.ReportsFirst late k [] ans :=
  ⟨fun _ hr => (nomatch hr), fun _ => h⟩

/-- With no parameter left, a next state that is not Faulted reports nothing. -/
theorem State.reportsFirst_next {t : State} (ht : s.status ≠ .faulted → t.status ≠ .faulted) :
    s.ReportsFirst late k [] (.next t) :=
  State.reportsFirst_nil fun hs _ h ht' => by cases h; exact absurd ht' (ht hs)

/-- Fault entry with a parameter's own fault reports the first one, whatever the later parameters are. -/
theorem State.reportsFirst_raise {ρ : Role} {r : Raise} (h : s.raiseOf k (ρ, p) = some r) :
    s.ReportsFirst late k ((ρ, p) :: ps) (.next (s.enterFault r)) := by
  have hfirst : s.firstRaise k ((ρ, p) :: ps) = some r := by simp only [State.firstRaise, h]
  refine ⟨fun r' hr' => ?_, fun hnone => nomatch hfirst.symm.trans hnone⟩
  cases hfirst.symm.trans hr'
  rfl

/-- A parameter that raises nothing leaves the report to the later ones. -/
theorem State.reportsFirst_cons {ρ : Role} {ans : Answer} (h : s.raiseOf k (ρ, p) = none)
    (hlater : s.ReportsFirst late (k + 1) ps ans) : s.ReportsFirst late k ((ρ, p) :: ps) ans := by
  have hfirst : s.firstRaise k ((ρ, p) :: ps) = s.firstRaise (k + 1) ps := by simp only [State.firstRaise, h]
  rwa [State.ReportsFirst, hfirst]

/-- Reading a parameter reports the first fault, if what follows does so for the later parameters. -/
theorem State.withRead_reportsFirst {go : Int → Answer}
    (hgo : ∀ v, s.readValue k p = .ok v → s.ReportsFirst late (k + 1) ps (go v)) :
    s.ReportsFirst late k ((.read, p) :: ps) (s.withRead k p go) := by
  cases h : s.readValue k p with
  | error r => rw [State.withRead_error go h]; exact State.reportsFirst_raise (by simp only [State.raiseOf, h])
  | ok v => rw [State.withRead_ok go h]; exact State.reportsFirst_cons (by simp only [State.raiseOf, h]) (hgo v h)

/-- Resolving a target reports the first fault, if what follows does so for the later parameters. -/
theorem State.withTarget_reportsFirst {go : Nat → Answer}
    (hgo : ∀ adr, s.effAddr k p = .ok adr → s.ReportsFirst late (k + 1) ps (go adr)) :
    s.ReportsFirst late k ((.write, p) :: ps) (s.withTarget k p go) := by
  cases h : s.effAddr k p with
  | error r => rw [State.withTarget_error go h]; exact State.reportsFirst_raise (by simp only [State.raiseOf, h])
  | ok adr => rw [State.withTarget_ok go h]; exact State.reportsFirst_cons (by simp only [State.raiseOf, h]) (hgo adr h)

/-- A storing form reports its first fault and raises none after its parameters. -/
theorem State.binary_reportsFirst (f : Int → Int → Int) (a b c : Operand) :
    s.ReportsFirst late 1 [(.read, a), (.read, b), (.write, c)] (s.binary f a b c) :=
  State.withRead_reportsFirst fun _ _ => State.withRead_reportsFirst fun _ _ =>
    State.withTarget_reportsFirst fun _ _ => State.reportsFirst_next id

/-- IN reports the fault of its target; neither the pause nor the input raises one. -/
theorem execInp_reportsFirst (a : Operand) : s.ReportsFirst late 1 [(.write, a)] (execInp a s) := by
  refine State.withTarget_reportsFirst fun adr _ => ?_
  split
  next => exact State.reportsFirst_next fun _ => by simp
  next => exact State.reportsFirst_next id

/-- A jump, taken where `taken` holds of parameter 1, reports its first fault; after its parameters it raises the fault of a
negative target alone, and only where it is taken. -/
theorem State.jump_reportsFirst {i : Instr} {a b : Operand} {taken : Int → Bool}
    (htaken : ∀ x, taken x = true → (i = .jt a b ∧ x ≠ 0) ∨ (i = .jf a b ∧ x = 0)) :
    s.ReportsFirst (JumpFault i s) 1 [(.read, a), (.read, b)]
      (s.withRead 1 a fun x => s.withRead 2 b fun y => s.branch (taken x) y) := by
  refine State.withRead_reportsFirst fun x hx => State.withRead_reportsFirst fun y hy => ?_
  obtain ⟨hx0, hneg, hans⟩ | ⟨-, -, hans⟩ | ⟨-, hans⟩ := State.branch_cases (s := s) (taken := taken x) (target := y) rfl
  · refine State.reportsFirst_nil fun _ t ht _ => ?_
    cases hans.symm.trans ht
    exact ⟨a, b, x, y, htaken x hx0, hx, hy, hneg, rfl⟩
  · rw [hans]; exact State.reportsFirst_next id
  · rw [hans]; exact State.reportsFirst_next id

end

/-- Every instruction reports the first fault of its parameters; a later fault is a taken jump's. -/
theorem exec_reportsFirst (i : Instr) (s : State) : s.ReportsFirst (JumpFault i s) 1 (instrParams i) (exec i s) := by
  cases i with
  | add a b c => exact State.binary_reportsFirst _ a b c
  | mul a b c => exact State.binary_reportsFirst _ a b c
  | lt a b c => exact State.binary_reportsFirst _ a b c
  | eq a b c => exact State.binary_reportsFirst _ a b c
  | inp a => exact execInp_reportsFirst a
  | out a => exact State.withRead_reportsFirst fun _ _ => State.reportsFirst_next id
  | arb a => exact State.withRead_reportsFirst fun _ _ => State.reportsFirst_next id
  | jt a b => exact State.jump_reportsFirst fun x hx => .inl ⟨rfl, by simpa using hx⟩
  | jf a b => exact State.jump_reportsFirst fun x hx => .inr ⟨rfl, by simpa using hx⟩
  | hlt => exact State.reportsFirst_next fun _ => by simp

/-- Settles O14: fault by fault along the parameters, instruction by instruction. -/
theorem firstFaultIsReported : Obligations.FirstFaultIsReported := exec_reportsFirst

end Sys2Proof.Machine
end

section
/-!
PROOFS. The statements of 41_arithmetic.md on ADD and MUL (R75, R76), and the completion of the four storing forms in every
legal mode (R53, R64, R65). What a storing form answers is said once, for any function of its two read parameters.
-/
namespace Sys2Proof

/-- The canonical words of an instruction with three parameters (R46, R55). -/
theorem encode_of_operands_three {i : Instr} {a b c : Operand} (h : i.operands = [a, b, c]) :
    encode i = [i.opcode.number + 100 * (a.mode.toDigit : Int) + 1000 * b.mode.toDigit + 10000 * c.mode.toDigit,
      a.raw, b.raw, c.raw] := by
  simp only [encode, h, List.map, encodeWord_three]

end Sys2Proof

namespace Sys2Proof.Machine

/-! A storing form by the resolution of its parameters (R66, R72) -/

section
variable {s : State} {a b c : Operand} {x y : Int}

/-- A storing form whose parameters resolve stores its result and advances by 4. -/
theorem State.binary_ok {adr : Nat} (f : Int → Int → Int) (hx : s.readValue 1 a = .ok x) (hy : s.readValue 2 b = .ok y)
    (hadr : s.effAddr 3 c = .ok adr) :
    s.binary f a b c = .next { s with mem := s.mem.write adr (f x y), ip := s.ip + 4 } := by
  rw [State.binary, State.withRead_ok _ hx, State.withRead_ok _ hy, State.withTarget_ok _ hadr]
  rfl

/-- A storing form whose first parameter raises enters that fault. -/
theorem State.binary_error_left {r : Raise} (f : Int → Int → Int) (hr : s.readValue 1 a = .error r) :
    s.binary f a b c = .next (s.enterFault r) := State.withRead_error _ hr

/-- A storing form whose second parameter is the first to raise enters that fault. -/
theorem State.binary_error_right {r : Raise} (f : Int → Int → Int) (hx : s.readValue 1 a = .ok x)
    (hr : s.readValue 2 b = .error r) : s.binary f a b c = .next (s.enterFault r) :=
  (State.withRead_ok _ hx).trans (State.withRead_error _ hr)

/-- A storing form whose target is the first to raise enters that fault. -/
theorem State.binary_error_target {r : Raise} (f : Int → Int → Int) (hx : s.readValue 1 a = .ok x)
    (hy : s.readValue 2 b = .ok y) (hr : s.effAddr 3 c = .error r) : s.binary f a b c = .next (s.enterFault r) :=
  (State.withRead_ok _ hx).trans <| (State.withRead_ok _ hy).trans (State.withTarget_error _ hr)

/-- A storing form completes where its parameters have legal modes and name no negative address. -/
theorem State.binary_complete (f : Int → Int → Int) (ha : s.CanRead a) (hb : s.CanRead b) (hc : s.CanWrite c) :
    s.binary f a b c = .next { s with
      mem := s.mem.write (s.addressOf c).toNat (f (s.valueOf a) (s.valueOf b)), ip := s.ip + 4 } :=
  State.binary_ok f (State.readValue_of_canRead 1 ha) (State.readValue_of_canRead 2 hb) (State.effAddr_of_canWrite 3 hc)

end

/-! The four storing forms and the function each stores (R75, R76, R82 to R84) -/

theorem exec_add (a b c : Operand) (s : State) : exec (.add a b c) s = s.binary (fun x y => x + y) a b c := rfl

theorem exec_mul (a b c : Operand) (s : State) : exec (.mul a b c) s = s.binary (fun x y => x * y) a b c := rfl

@[simp] theorem truthWord_decide (p : Prop) [Decidable p] : truthWord (decide p) = if p then 1 else 0 := by
  simp only [truthWord, decide_eq_true_eq]

theorem exec_lt (a b c : Operand) (s : State) :
    exec (.lt a b c) s = s.binary (fun x y => if x < y then 1 else 0) a b c := by
  simp only [exec, execLt, truthWord_decide]

theorem exec_eq (a b c : Operand) (s : State) :
    exec (.eq a b c) s = s.binary (fun x y => if x = y then 1 else 0) a b c := by
  simp only [exec, execEq, truthWord_decide]

/-- What the spec says of a storing form: its canonical words, its result where every parameter resolves, and the first
fault where one does not (R55, R66, R72). -/
theorem storingForm_spec {i : Instr} {f : Int → Int → Int} {a b c : Operand} {s : State}
    (hops : i.operands = [a, b, c]) (hexec : exec i s = s.binary f a b c) :
    encode i = [i.opcode.number + 100 * (a.mode.toDigit : Int) + 1000 * b.mode.toDigit + 10000 * c.mode.toDigit,
      a.raw, b.raw, c.raw] ∧
    (∀ x y t, s.readValue 1 a = .ok x → s.readValue 2 b = .ok y → s.effAddr 3 c = .ok t →
      exec i s = .next { s with mem := s.mem.write t (f x y), ip := s.ip + 4 }) ∧
    (∀ r, s.readValue 1 a = .error r → exec i s = .next (s.enterFault r)) ∧
    (∀ x r, s.readValue 1 a = .ok x → s.readValue 2 b = .error r → exec i s = .next (s.enterFault r)) ∧
    (∀ x y r, s.readValue 1 a = .ok x → s.readValue 2 b = .ok y → s.effAddr 3 c = .error r →
      exec i s = .next (s.enterFault r)) := by
  rw [hexec]
  exact ⟨encode_of_operands_three hops, fun _ _ _ => State.binary_ok f, fun _ => State.binary_error_left f,
    fun _ _ => State.binary_error_right f, fun _ _ _ => State.binary_error_target f⟩

/-- Settles O16: ADD is the storing form of the sum. -/
theorem addWritesTheSum : Obligations.AddWritesTheSum := fun s a b c => storingForm_spec rfl (exec_add a b c s)

/-- Settles O17: MUL is the storing form of the product. -/
theorem mulWritesTheProduct : Obligations.MulWritesTheProduct := fun s a b c => storingForm_spec rfl (exec_mul a b c s)

/-- Settles O55: each of the four is a storing form, and a storing form completes under these conditions. -/
theorem storingFormsComplete : Obligations.StoringFormsComplete := by
  intro s a b c ha hb hc
  rw [exec_add, exec_mul, exec_lt, exec_eq]
  exact ⟨State.binary_complete _ ha hb hc, State.binary_complete _ ha hb hc, State.binary_complete _ ha hb hc,
    State.binary_complete _ ha hb hc⟩

end Sys2Proof.Machine
end

section
/-!
PROOFS. The statements of 42_io.md on IN and OUT (R77, R78), and the completion of IN, OUT, ARB, the jumps and HLT in every
legal mode (R53, R64, R65).
-/
namespace Sys2Proof

/-- The canonical word of an opcode with one parameter (R55). -/
theorem encodeWord_one (op : Opcode) (m : Nat) : encodeWord op [m] = op.number + 100 * (m : Int) := by
  simp only [encodeWord, ofDigits]; omega

/-- The canonical words of an instruction with one parameter (R46, R55). -/
theorem encode_of_operands_one {i : Instr} {a : Operand} (h : i.operands = [a]) :
    encode i = [i.opcode.number + 100 * (a.mode.toDigit : Int), a.raw] := by
  simp only [encode, h, List.map, encodeWord_one]

end Sys2Proof

namespace Sys2Proof.Machine

section
variable {s : State} {a b : Operand} {x y : Int}

/-! The forms with one parameter, by its resolution (R77, R78, R85) -/

/-- IN with a target that resolves and a value waiting stores the head of the queue and advances by 2. -/
theorem execInp_input {adr : Nat} {v : Int} {q : List Int} (hadr : s.effAddr 1 a = .ok adr) (hq : s.inq = v :: q) :
    execInp a s = .next { s with inq := q, mem := s.mem.write adr v, ip := s.ip + 2 } := by
  rw [execInp, State.withTarget_ok _ hadr, hq]
  rfl

/-- IN whose target raises enters that fault, before the queue is tested (decision D13). -/
theorem execInp_error {r : Raise} (hr : s.effAddr 1 a = .error r) : execInp a s = .next (s.enterFault r) :=
  State.withTarget_error _ hr

/-- OUT whose parameter resolves appends its value and advances by 2. -/
theorem execOut_ok {v : Int} (hv : s.readValue 1 a = .ok v) :
    execOut a s = .next { s with outq := s.outq ++ [v], ip := s.ip + 2 } := State.withRead_ok _ hv

/-- OUT whose parameter raises enters that fault. -/
theorem execOut_error {r : Raise} (hr : s.readValue 1 a = .error r) : execOut a s = .next (s.enterFault r) :=
  State.withRead_error _ hr

/-- ARB whose parameter resolves adds its value to the relative base and advances by 2. -/
theorem execArb_ok {v : Int} (hv : s.readValue 1 a = .ok v) :
    execArb a s = .next { s with rb := s.rb + v, ip := s.ip + 2 } := State.withRead_ok _ hv

/-! The jumps, by the resolution of their parameters (R79 to R81) -/

/-- A taken jump goes to a target that is not negative. -/
theorem State.branch_taken (hy : 0 ≤ y) : s.branch true y = .next { s with ip := y.toNat } := by
  rw [State.branch, if_pos rfl, if_neg (not_lt.mpr hy)]
  rfl

/-- A jump that is not taken advances by 3, whatever its target is. -/
theorem State.branch_not_taken (s : State) (y : Int) : s.branch false y = .next { s with ip := s.ip + 3 } := rfl

/-- JT whose parameters resolve is the branch on its condition. -/
theorem execJt_ok (hx : s.readValue 1 a = .ok x) (hy : s.readValue 2 b = .ok y) :
    execJt a b s = s.branch (decide (x ≠ 0)) y :=
  (State.withRead_ok _ hx).trans (State.withRead_ok _ hy)

/-- JF whose parameters resolve is the branch on its condition. -/
theorem execJf_ok (hx : s.readValue 1 a = .ok x) (hy : s.readValue 2 b = .ok y) :
    execJf a b s = s.branch (decide (x = 0)) y :=
  (State.withRead_ok _ hx).trans (State.withRead_ok _ hy)

/-- JT whose parameters resolve jumps where the condition is not 0 and the target not negative. -/
theorem execJt_taken (hx : s.readValue 1 a = .ok x) (hy : s.readValue 2 b = .ok y) (hx0 : x ≠ 0) (hy0 : 0 ≤ y) :
    execJt a b s = .next { s with ip := y.toNat } := by
  rw [execJt_ok hx hy, decide_eq_true hx0, State.branch_taken hy0]

/-- JT whose parameters resolve falls through where the condition is 0. -/
theorem execJt_not_taken (hx : s.readValue 1 a = .ok x) (hy : s.readValue 2 b = .ok y) (hx0 : x = 0) :
    execJt a b s = .next { s with ip := s.ip + 3 } := by
  rw [execJt_ok hx hy, decide_eq_false (not_not.mpr hx0), State.branch_not_taken]

/-- JF whose parameters resolve jumps where the condition is 0 and the target not negative. -/
theorem execJf_taken (hx : s.readValue 1 a = .ok x) (hy : s.readValue 2 b = .ok y) (hx0 : x = 0) (hy0 : 0 ≤ y) :
    execJf a b s = .next { s with ip := y.toNat } := by
  rw [execJf_ok hx hy, decide_eq_true hx0, State.branch_taken hy0]

/-- JF whose parameters resolve falls through where the condition is not 0. -/
theorem execJf_not_taken (hx : s.readValue 1 a = .ok x) (hy : s.readValue 2 b = .ok y) (hx0 : x ≠ 0) :
    execJf a b s = .next { s with ip := s.ip + 3 } := by
  rw [execJf_ok hx hy, decide_eq_false hx0, State.branch_not_taken]

end

/-! The statements -/

/-- Settles O20: the target resolves or raises; where it resolves, the queue holds a value or is empty. -/
theorem inReadsTheHeadOrPauses : Obligations.InReadsTheHeadOrPauses := fun _ _ =>
  ⟨encode_of_operands_one rfl, fun _ _ _ => execInp_input, fun _ => execInp_pause, fun _ => execInp_error⟩

/-- Settles O21: the parameter resolves or raises. -/
theorem outAppendsTheValue : Obligations.OutAppendsTheValue := fun _ _ =>
  ⟨encode_of_operands_one rfl, fun _ => execOut_ok, fun _ => execOut_error⟩

/-- Settles O56: under these conditions the parameter resolves to its value. -/
theorem outAndArbComplete : Obligations.OutAndArbComplete := by
  intro s a ha
  have hv := State.readValue_of_canRead 1 ha
  exact ⟨execOut_ok hv, execArb_ok hv⟩

/-- Settles O57: under these conditions the target of IN and the parameters of a jump resolve; HLT has none. -/
theorem inputJumpsAndHaltComplete : Obligations.InputJumpsAndHaltComplete := by
  refine ⟨fun s a v q ha hq => execInp_input (State.effAddr_of_canWrite 1 ha) hq, fun s a b ha hb => ?_, fun _ => rfl⟩
  have hx := State.readValue_of_canRead 1 ha
  have hy := State.readValue_of_canRead 2 hb
  exact ⟨execJt_taken hx hy, execJt_not_taken hx hy, execJf_taken hx hy, execJf_not_taken hx hy⟩

end Sys2Proof.Machine
end

section
/-!
PROOFS. The statements of 43_control_transfer.md on JT and JF (R80, R81). What a taken jump does at a negative target and
what a parameter that raises does are said once for both; where the jumps complete, the lemmas `execJt_taken` to
`execJf_not_taken` say so.
-/
namespace Sys2Proof

/-- The canonical words of an instruction with two parameters (R46, R55). -/
theorem encode_of_operands_two {i : Instr} {a b : Operand} (h : i.operands = [a, b]) :
    encode i = [i.opcode.number + 100 * (a.mode.toDigit : Int) + 1000 * b.mode.toDigit, a.raw, b.raw] := by
  simp only [encode, h, List.map, encodeWord_two]

end Sys2Proof

namespace Sys2Proof.Machine

section
variable {s : State} {a b : Operand} {x y : Int}

/-! A jump that faults (R66, R67, decisions D12 and D14) -/

/-- A taken jump raises the fault of a negative target, on behalf of parameter 2. -/
theorem State.branch_taken_of_neg (hy : y < 0) :
    s.branch true y = .next (s.enterFault ⟨.invalidAddress, 2, y⟩) := by
  rw [State.branch, if_pos rfl, if_pos hy]

/-- JT whose parameters resolve faults where the condition is not 0 and the target negative. -/
theorem execJt_negative_target (hx : s.readValue 1 a = .ok x) (hy : s.readValue 2 b = .ok y) (hx0 : x ≠ 0)
    (hy0 : y < 0) : execJt a b s = .next (s.enterFault ⟨.invalidAddress, 2, y⟩) := by
  rw [execJt_ok hx hy, decide_eq_true hx0, State.branch_taken_of_neg hy0]

/-- JF whose parameters resolve faults where the condition is 0 and the target negative. -/
theorem execJf_negative_target (hx : s.readValue 1 a = .ok x) (hy : s.readValue 2 b = .ok y) (hx0 : x = 0)
    (hy0 : y < 0) : execJf a b s = .next (s.enterFault ⟨.invalidAddress, 2, y⟩) := by
  rw [execJf_ok hx hy, decide_eq_true hx0, State.branch_taken_of_neg hy0]

/-- An instruction that reads two parameters, the second the first to raise, enters that fault, whatever it does with their
values. -/
theorem State.withRead_error_right {r : Raise} (go : Int → Int → Answer) (hx : s.readValue 1 a = .ok x)
    (hr : s.readValue 2 b = .error r) :
    (s.withRead 1 a fun x => s.withRead 2 b (go x)) = .next (s.enterFault r) :=
  (State.withRead_ok _ hx).trans (State.withRead_error _ hr)

end

/-! The statements -/

/-- Settles O22: both parameters resolve, and then the condition and the sign of the target decide; or one of them raises. -/
theorem jtJumpsIfNotZero : Obligations.JtJumpsIfNotZero := fun _ _ _ =>
  ⟨encode_of_operands_two rfl,
    fun _ _ hx hy => ⟨execJt_taken hx hy, execJt_negative_target hx hy, execJt_not_taken hx hy⟩,
    fun _ => State.withRead_error _, fun _ _ => State.withRead_error_right _⟩

/-- Settles O23: as for JT, with the condition 0 for a taken jump. -/
theorem jfJumpsIfZero : Obligations.JfJumpsIfZero := fun _ _ _ =>
  ⟨encode_of_operands_two rfl,
    fun _ _ hx hy => ⟨execJf_taken hx hy, execJf_negative_target hx hy, execJf_not_taken hx hy⟩,
    fun _ => State.withRead_error _, fun _ _ => State.withRead_error_right _⟩

end Sys2Proof.Machine
end


section
/-!
PROOFS. The statements of 44_compare.md on LT and EQ (R83, R84). Both are storing forms: `exec_lt` and `exec_eq` say which
function of the two parameters each stores, and `storingForm_spec` says what a storing form answers.
-/
namespace Sys2Proof.Machine

/-- Settles O18: LT is the storing form of 1 where the first parameter is less than the second, and of 0 elsewhere. -/
theorem ltWritesTheComparison : Obligations.LtWritesTheComparison := fun s a b c => storingForm_spec rfl (exec_lt a b c s)

/-- Settles O19: EQ is the storing form of 1 where the two parameters are equal, and of 0 elsewhere. -/
theorem eqWritesTheComparison : Obligations.EqWritesTheComparison := fun s a b c => storingForm_spec rfl (exec_eq a b c s)

end Sys2Proof.Machine
end

section
/-!
PROOFS. The statements of 45_base_and_halt.md on ARB and HLT (R85, R86), with what the host operations answer of a machine
that is halted.
-/
namespace Sys2Proof

/-- A non-negative word with a recognised opcode field stands for that opcode's instruction, whatever its other digits and its
parameter words are (R46, R50, R62). -/
theorem decodeWith_of_number {w : Int} {op : Opcode} (raw : Nat → Int) (hw : 0 ≤ w) (hop : w % 100 = op.number) :
    decodeWith w raw = .ok (Instr.build op (paramOf (modeDigits op.nparams w.toNat) raw)) := by
  rw [decodeWith, decodeWord_of_number hw hop]

end Sys2Proof

namespace Sys2Proof.Machine

section
variable {s : State}

/-- ARB whose parameter raises enters that fault. -/
theorem execArb_error {a : Operand} {r : Raise} (hr : s.readValue 1 a = .error r) :
    execArb a s = .next (s.enterFault r) := State.withRead_error _ hr

/-! The host operations (R90, R91, R95) -/

/-- A halted machine reports Halted. -/
theorem State.report_of_halted (hs : s.status = .halted) : s.report = .status .halted := by
  rw [State.report, hs]

/-- `run` of a machine that is not Running reports it at once, with any fuel (R90). -/
theorem hostRun_of_not_running (fuel : Nat) (hs : s.status ≠ .running) : hostRun fuel s = some (s.report, s) := by
  cases fuel with
  | zero => exact if_neg hs
  | succ n => exact if_neg hs

/-- `run` of a halted machine returns Halted (R86, R90). -/
theorem hostRun_of_halted (fuel : Nat) (hs : s.status = .halted) : hostRun fuel s = some (.status .halted, s) := by
  rw [hostRun_of_not_running fuel (by simp [hs]), State.report_of_halted hs]

/-- `resume` of a halted machine is an error and supplies nothing (R86, R91). -/
theorem hostResume_of_halted (fuel : Nat) (vs : List Int) (hs : s.status = .halted) :
    hostResume fuel vs s = some (.error .invalidState, s) := by
  rw [hostResume, hs]

/-- `peek` of a valid address reads it (R95). -/
theorem hostPeek_of_nonneg {a : Int} (s : State) (ha : 0 ≤ a) : hostPeek a s = (.value (s.mem.read a.toNat), s) :=
  if_neg (not_lt.mpr ha)

end

/-! The statements -/

/-- Settles O24: the parameter resolves, with the old base, or raises. -/
theorem arbAdjustsTheBase : Obligations.ArbAdjustsTheBase := fun _ _ =>
  ⟨encode_of_operands_one rfl, fun _ => execArb_ok, fun _ => execArb_error⟩

/-- Settles O25: the opcode field 99 decides the decoding, since HLT has no parameters, and each host operation answers a
halted machine without a step. -/
theorem hltHalts : Obligations.HltHalts :=
  ⟨rfl, fun _ raw hw hop => decodeWith_of_number (op := .hlt) raw hw hop, fun _ => rfl, fun s fuel vs a hs =>
    ⟨hostRun_of_halted fuel hs, hostResume_of_halted fuel vs hs, hostPeek_of_nonneg s (Int.natCast_nonneg a)⟩⟩

end Sys2Proof.Machine
end

section
/-!
PROOFS. The statements of 46_host_interface.md on construction, the single step, `resume`, the observations, `poke` and the
host-level errors (R88, R89, R91 to R96), with what the host operations answer in each status.
-/
namespace Sys2Proof.Machine

/-! A program in memory (R31, R32, R89) -/

/-- Storing words from `a` on leaves every address below `a` alone. -/
theorem Memory.read_load_below (m : Memory) {a b : Nat} (ws : List Int) (hb : b < a) :
    (m.load a ws).read b = m.read b := by
  induction ws generalizing m a with
  | nil => rfl
  | cons w ws ih => exact (ih _ (Nat.lt_succ_of_lt hb)).trans (Memory.read_write_other m w hb.ne)

/-- Words stored from `a` on are read back in order, and beyond them the memory reads as before. -/
theorem Memory.read_load_add {m : Memory} (a i : Nat) (ws : List Int) (h : m.wf = true) :
    (m.load a ws).read (a + i) = ws.getD i (m.read (a + i)) := by
  induction ws generalizing m a i with
  | nil => rfl
  | cons w ws ih =>
    cases i with
    | zero => exact (Memory.read_load_below _ ws (Nat.lt_succ_self a)).trans (Memory.read_write_same a w h)
    | succ i =>
      have hother : (m.write a w).read (a + (i + 1)) = m.read (a + (i + 1)) :=
        Memory.read_write_other m w (by omega)
      have haddr : a + (i + 1) = a + 1 + i := by omega
      rw [List.getD_cons_succ, ← hother, haddr]
      exact ih (a + 1) i (Memory.write_wf a w h)

section
variable {s t : State} {e : HostError}

/-! What a state reports (R90, R92, R101) -/

/-- A machine that is not Faulted reports its status. -/
theorem State.report_of_not_faulted (hs : s.status ≠ .faulted) : s.report = .status s.status := by
  unfold State.report
  split
  next h => rw [h]
  next h => rw [h]
  next h => rw [h]
  next h => exact absurd h hs

/-- A Faulted machine reports its record. -/
theorem State.report_of_fault {r : FaultRecord} (hs : s.status = .faulted) (hr : s.fault = some r) :
    s.report = .fault r := by
  simp only [State.report, hs, hr]

/-- Only a Faulted machine without a record reports an error, InvalidState (log entry 5). -/
theorem State.report_error (h : s.report = .error e) : s.status = .faulted ∧ s.fault = none ∧ e = .invalidState := by
  by_cases hs : s.status = .faulted
  · cases hr : s.fault with
    | some r => cases h.symm.trans (State.report_of_fault hs hr)
    | none =>
      simp only [State.report, hs, hr] at h
      cases h
      exact ⟨hs, rfl, rfl⟩
  · cases h.symm.trans (State.report_of_not_faulted hs)

/-- A machine that is not Faulted reports no error. -/
theorem State.report_ne_error (hs : s.status ≠ .faulted) : s.report ≠ .error e := fun h => hs (State.report_error h).1

/-- What a step leaves reports no error: a step that faults writes the record (R104). -/
theorem report_ne_error_of_step (h : step s = .next t) : t.report ≠ .error e := by
  intro he
  obtain ⟨hs, hr, -⟩ := State.report_error he
  obtain ⟨r, rfl⟩ := (step_faulted_iff h).mp hs
  cases hr

/-! The single step (R92) -/

/-- While Running a step answers a next state. -/
theorem exists_step_of_running (hs : s.status = .running) : ∃ t, step s = .next t := by
  cases hf : s.fetch with
  | error d => exact ⟨_, by rw [step_running hs, stepBody, hf]⟩
  | ok i => rw [step_of_fetch hs hf]; exact exec_next i s

/-- In AwaitingInput and Halted the host's step is an error. -/
theorem hostStep_of_waiting (hs : s.status = .awaitingInput ∨ s.status = .halted) :
    hostStep s = (.error .invalidState, s) := by
  obtain hs | hs := hs <;> simp only [hostStep, step, stepAny, hs]

/-- Once Faulted the host's step reports and changes nothing. -/
theorem hostStep_of_faulted (hs : s.status = .faulted) : hostStep s = (s.report, s) := by
  cases hr : s.fault <;> simp only [hostStep, step, stepAny, State.report, hs, hr]

/-! `run` and `resume` (R90, R91) -/

/-- `run` without fuel does not return while Running. -/
theorem hostRun_zero_of_running (hs : s.status = .running) : hostRun 0 s = none := if_pos hs

/-- One step of fuel makes one step. -/
theorem hostRun_succ_of_step (n : Nat) (h : step s = .next t) : hostRun (n + 1) s = hostRun n t := by
  rw [hostRun, if_pos (step_cases h).1, hostStep_of_next h]

/-- `resume` of a Faulted machine reports and supplies nothing. -/
theorem hostResume_of_faulted (fuel : Nat) (vs : List Int) (hs : s.status = .faulted) :
    hostResume fuel vs s = some (s.report, s) := by
  rw [hostResume, hs]

/-- `resume` of a machine that has not finished supplies the values and runs. -/
theorem hostResume_of_not_terminal (fuel : Nat) (vs : List Int) (hs : s.status = .running ∨ s.status = .awaitingInput) :
    hostResume fuel vs s = hostRun fuel (s.supply vs) := by
  obtain hs | hs := hs <;> rw [hostResume, hs]

/-- Supplying values appends them. -/
theorem State.supply_of_not_awaitingInput (vs : List Int) (hs : s.status ≠ .awaitingInput) :
    s.supply vs = { s with inq := s.inq ++ vs } := by
  rw [State.supply, if_neg hs]

/-- Supplying values to a paused machine appends them and makes it Running. -/
theorem State.supply_of_awaitingInput (vs : List Int) (hs : s.status = .awaitingInput) :
    s.supply vs = { s with inq := s.inq ++ vs, status := .running } := by
  rw [State.supply, if_pos hs]

/-- A machine that has not finished is Running once values are supplied. -/
theorem State.supply_running (vs : List Int) (hs : s.status = .running ∨ s.status = .awaitingInput) :
    (s.supply vs).status = .running := by
  obtain hs | hs := hs <;> simp [hs]

/-! `peek` and `poke` of an invalid address, `poke` of a valid one (R95, R96) -/

/-- `peek` of a negative address is an error. -/
theorem hostPeek_of_neg {a : Int} (s : State) (ha : a < 0) : hostPeek a s = (.error .invalidAddress, s) := if_pos ha

/-- `poke` of a negative address is an error. -/
theorem hostPoke_of_neg {a : Int} (v : Int) (s : State) (ha : a < 0) : hostPoke a v s = (.error .invalidAddress, s) :=
  if_pos ha

/-- `poke` of a valid address writes it. -/
theorem hostPoke_of_nonneg {a : Int} (v : Int) (s : State) (ha : 0 ≤ a) :
    hostPoke a v s = (.done, s.writeMem a.toNat v) := if_neg (not_lt.mpr ha)

/-! Host-level errors (R88) -/

/-- A machine that reports no error runs to no error. -/
theorem hostRun_ne_error {n : Nat} {r : Response} (hs : s.report ≠ .error e) (h : hostRun n s = some (r, t)) :
    r ≠ .error e := by
  induction n generalizing s with
  | zero =>
    by_cases hrun : s.status = .running
    · cases h.symm.trans (hostRun_zero_of_running hrun)
    · cases h.symm.trans (hostRun_of_not_running 0 hrun); exact hs
  | succ n ih =>
    by_cases hrun : s.status = .running
    · obtain ⟨u, hu⟩ := exists_step_of_running hrun
      exact ih (report_ne_error_of_step hu) ((hostRun_succ_of_step n hu).symm.trans h)
    · cases h.symm.trans (hostRun_of_not_running (n + 1) hrun); exact hs

/-- A Running machine runs to no error. -/
theorem hostRun_ne_error_of_running {n : Nat} (hs : s.status = .running) : hostRun n s ≠ some (.error e, t) :=
  fun h => hostRun_ne_error (State.report_ne_error (by simp [hs])) h rfl

/-- An error of `run` is InvalidState and changes nothing. -/
theorem hostRun_error {n : Nat} (h : hostRun n s = some (.error e, t)) : t = s ∧ e = .invalidState := by
  by_cases hs : s.status = .running
  · exact absurd h (hostRun_ne_error_of_running hs)
  · obtain ⟨he, rfl⟩ := Prod.mk.inj (Option.some.inj ((hostRun_of_not_running n hs).symm.trans h))
    exact ⟨rfl, (State.report_error he).2.2⟩

/-- An error of `resume` is InvalidState and changes nothing. -/
theorem hostResume_error {fuel : Nat} {vs : List Int} (h : hostResume fuel vs s = some (.error e, t)) :
    t = s ∧ e = .invalidState := by
  have hno (hs : s.status = .running ∨ s.status = .awaitingInput) : False :=
    hostRun_ne_error_of_running (State.supply_running vs hs) ((hostResume_of_not_terminal fuel vs hs).symm.trans h)
  cases hs : s.status with
  | running => exact (hno (.inl hs)).elim
  | awaitingInput => exact (hno (.inr hs)).elim
  | halted => cases (hostResume_of_halted fuel vs hs).symm.trans h; exact ⟨rfl, rfl⟩
  | faulted =>
    obtain ⟨he, rfl⟩ := Prod.mk.inj (Option.some.inj ((hostResume_of_faulted fuel vs hs).symm.trans h))
    exact ⟨rfl, (State.report_error he).2.2⟩

/-- An error of the host's step is InvalidState and changes nothing. -/
theorem hostStep_error (h : hostStep s = (.error e, t)) : t = s ∧ e = .invalidState := by
  have hwait (hs : s.status = .awaitingInput ∨ s.status = .halted) : t = s ∧ e = .invalidState := by
    cases (hostStep_of_waiting hs).symm.trans h; exact ⟨rfl, rfl⟩
  cases hs : s.status with
  | running =>
    obtain ⟨u, hu⟩ := exists_step_of_running hs
    exact absurd (Prod.mk.inj ((hostStep_of_next hu).symm.trans h)).1 (report_ne_error_of_step hu)
  | awaitingInput => exact hwait (.inl hs)
  | halted => exact hwait (.inr hs)
  | faulted =>
    obtain ⟨he, rfl⟩ := Prod.mk.inj ((hostStep_of_faulted hs).symm.trans h)
    exact ⟨rfl, (State.report_error he).2.2⟩

/-- An error of `peek` is InvalidAddress at a negative address and changes nothing. -/
theorem hostPeek_error {a : Int} (h : hostPeek a s = (.error e, t)) : t = s ∧ e = .invalidAddress ∧ a < 0 := by
  by_cases ha : a < 0
  · cases (hostPeek_of_neg s ha).symm.trans h; exact ⟨rfl, rfl, ha⟩
  · cases (hostPeek_of_nonneg s (not_lt.mp ha)).symm.trans h

/-- An error of `poke` is InvalidAddress at a negative address and changes nothing. -/
theorem hostPoke_error {a v : Int} (h : hostPoke a v s = (.error e, t)) : t = s ∧ e = .invalidAddress ∧ a < 0 := by
  by_cases ha : a < 0
  · cases (hostPoke_of_neg v s ha).symm.trans h; exact ⟨rfl, rfl, ha⟩
  · cases (hostPoke_of_nonneg v s (not_lt.mp ha)).symm.trans h

end

/-! The statements -/

/-- Settles O10: a step body's state is reported as it is; outside Running the step answers without one. -/
theorem hostStepInEveryStatus : Obligations.HostStepInEveryStatus := by
  refine fun s => ⟨fun t hs ht => ?_, fun r hs hr => ?_, hostStep_of_waiting⟩
  · have hstep : hostStep s = (t.report, t) := hostStep_of_next ((step_running hs).trans ht)
    exact ⟨fun hne => by rw [hstep, State.report_of_not_faulted hne],
      fun r hf hr => by rw [hstep, State.report_of_fault hf hr]⟩
  · rw [hostStep_of_faulted hs, State.report_of_fault hs hr]

/-- Settles O40: the elements are set one by one, and the program is read back from the empty memory it is stored in. -/
theorem constructionSetsEveryElement : Obligations.ConstructionSetsEveryElement := by
  refine fun program _ => ⟨rfl, rfl, rfl, rfl, rfl, rfl, fun a => ?_⟩
  have hread := Memory.read_load_add 0 a program reset_mem_wf
  rwa [Nat.zero_add] at hread

/-- Settles O46, by the kind of request. -/
theorem hostErrorsChangeNothing : Obligations.HostErrorsChangeNothing := by
  intro fuel q s t e h
  cases q with
  | run => exact (hostRun_error h).imp_right .inl
  | resume vs => exact (hostResume_error h).imp_right .inl
  | step => exact (hostStep_error (Option.some.inj h)).imp_right .inl
  | status => cases h
  | outputs => cases h
  | peek a =>
    obtain ⟨rfl, rfl, ha⟩ := hostPeek_error (Option.some.inj h)
    exact ⟨rfl, .inr ⟨rfl, a, 0, ha, .inl rfl⟩⟩
  | poke a v =>
    obtain ⟨rfl, rfl, ha⟩ := hostPoke_error (Option.some.inj h)
    exact ⟨rfl, .inr ⟨rfl, a, v, ha, .inr rfl⟩⟩

/-- Settles O48: a write to canonical memory is read back and leaves every other address alone. -/
theorem pokeWritesOneCell : Obligations.PokeWritesOneCell := by
  refine fun fuel s a v hwf => ⟨fun ha => congrArg some (hostPoke_of_neg v s ha), fun ha =>
    ⟨s.writeMem a.toNat v, congrArg some (hostPoke_of_nonneg v s ha), rfl, fun b hb => ?_, fun hip => ?_⟩⟩
  · have hab : b.toNat = a.toNat ↔ b = a := by omega
    rw [serve, hostPeek_of_nonneg _ hb, State.writeMem_mem, Memory.read_write _ _ v hwf]
    simp only [hab]
  · subst hip
    exact Memory.read_write_same s.ip v hwf

/-- Settles O44: a finished machine answers at once, any other is supplied and runs. -/
theorem resumeInEveryStatus : Obligations.ResumeInEveryStatus := by
  refine fun s fuel vs => ⟨hostResume_of_halted fuel vs, fun r hs hr => ?_, fun hs => ?_, fun hs => ?_⟩
  · rw [hostResume_of_faulted fuel vs hs, State.report_of_fault hs hr]
  · rw [hostResume_of_not_terminal fuel vs (.inl hs), State.supply_of_not_awaitingInput vs (by simp [hs])]
  · rw [hostResume_of_not_terminal fuel vs (.inr hs), State.supply_of_awaitingInput vs hs]

/-- Settles O47: `status` and `outputs` are what they answer by definition; `peek` depends on the address's sign. -/
theorem observationsChangeNothing : Obligations.ObservationsChangeNothing := fun _ s =>
  ⟨rfl, rfl, fun _ ha => congrArg some (hostPeek_of_nonneg s ha), fun _ ha => congrArg some (hostPeek_of_neg s ha)⟩

end Sys2Proof.Machine
end

section
/-!
PROOFS. The statements of 60_exceptions.md on a Faulted machine and on many instances (R106, R111).
-/
namespace Sys2Proof.Machine

/-- A request to place `j` of the list serves the machine there and puts what it leaves back in its place (R87, R111, log
entry 11). -/
theorem serveAt_eq (fuel j : Nat) (q : Request) (xs : Instances) :
    serveAt fuel j q xs = xs[j]?.bind fun s => (serve fuel q s).map fun x => (x.1, xs.set j x.2) := by
  induction xs generalizing j with
  | nil => rw [serveAt, List.getElem?_nil, Option.bind_none]
  | cons s xs ih =>
    cases j with
    | zero => cases hs : serve fuel q s <;> simp [serveAt, hs]
    | succ j =>
      rw [serveAt, ih, List.getElem?_cons_succ]
      cases xs[j]? with
      | none => rfl
      | some u => cases hu : serve fuel q u <;> simp [hu]

/-! The statements -/

/-- Settles O49: `run`, `resume` and `step` report the record, and the address of `peek` and `poke` is not negative. -/
theorem faultedMachineAnswersItsRecord : Obligations.FaultedMachineAnswersItsRecord := by
  intro fuel s r values a v hs hr
  have hrep : s.report = .fault r := State.report_of_fault hs hr
  have ha : (0 : Int) ≤ a := Int.natCast_nonneg a
  refine ⟨?run, ?resume, ?step, ?status, rfl, congrArg some (hostPeek_of_nonneg s ha),
    congrArg some (hostPoke_of_nonneg v s ha)⟩
  case run => rw [serve, hostRun_of_not_running fuel (by simp [hs]), hrep]
  case resume => rw [serve, hostResume_of_faulted fuel values hs, hrep]
  case step => rw [serve, hostStep_of_faulted hs, hrep]
  case status => rw [serve, hostStatus, hs]

/-- Settles O50: the operation replaces one place of the list, the named one, by what it leaves there. -/
theorem instancesShareNothing : Obligations.InstancesShareNothing := by
  intro fuel j q xs ys r h
  rw [serveAt_eq] at h
  obtain ⟨s, hs, hx⟩ := Option.bind_eq_some_iff.mp h
  obtain ⟨⟨_, t⟩, ht, heq⟩ := Option.map_eq_some_iff.mp hx
  cases heq
  obtain ⟨hj, -⟩ := List.getElem?_eq_some_iff.mp hs
  exact ⟨List.length_set, fun k hk => List.getElem?_set_ne hk.symm, s, t, hs, ht, List.getElem?_set_self hj⟩

end Sys2Proof.Machine
end

section
/-!
PROOFS. The statements of 30_encoding.md on the canonical encoding: decoding and encoding are inverse to each other, up to the
digits that are not examined (R46 to R50, R55, R58).
-/
namespace Sys2Proof

/-! The mode digits of a word, one after another (R49) -/

/-- The mode digits of a word are its hundreds digit and the mode digits of the word less its units digit. -/
theorem modeDigits_succ (n w : Nat) : modeDigits (n + 1) w = w / 100 % 10 :: modeDigits n (w / 10) := by
  have hshift (j : Nat) : digit (j + 1 + 2) w = digit (j + 2) (w / 10) := by
    rw [digit, digit, Nat.div_div_eq_div_mul, ← Nat.pow_succ']
  simp only [modeDigits, List.range_succ_eq_map, List.map_cons, List.map_map]
  exact congrArg _ (List.map_congr_left fun j _ => hshift j)

/-- The digits written above an opcode field are read back as mode digits. -/
theorem modeDigits_ofDigits {ms : List Nat} (hms : ∀ m ∈ ms, m ≤ 9) {c : Nat} (hc : c < 100) :
    modeDigits ms.length (c + 100 * ofDigits ms) = ms := by
  induction ms generalizing c with
  | nil => rfl
  | cons m ms ih =>
    obtain ⟨hm, hms⟩ := List.forall_mem_cons.mp hms
    have hhead : (c + 100 * (m + 10 * ofDigits ms)) / 100 % 10 = m := by omega
    have htail : (c + 100 * (m + 10 * ofDigits ms)) / 10 = (c + 100 * m) / 10 + 100 * ofDigits ms := by omega
    rw [List.length_cons, modeDigits_succ, ofDigits, hhead, htail, ih hms (by omega)]

/-- The mode digits of `n` parameters make up the word above its opcode field, modulo `10 ^ n`. -/
theorem ofDigits_modeDigits (n w : Nat) : ofDigits (modeDigits n w) = w / 100 % 10 ^ n := by
  induction n generalizing w with
  | zero => exact (Nat.mod_one _).symm
  | succ n ih =>
    have hswap : w / 10 / 100 = w / 100 / 10 := by omega
    rw [modeDigits_succ, ofDigits, ih, hswap, Nat.pow_succ', Nat.mod_mul]

theorem modeDigits_le_nine (n w : Nat) : ∀ m ∈ modeDigits n w, m ≤ 9 := by
  intro m hm
  obtain ⟨j, -, rfl⟩ := List.mem_map.mp hm
  exact Nat.le_of_lt_succ (Nat.mod_lt _ (by decide))

/-! Modes and their digits (R51) -/

@[simp] theorem Mode.toDigit_ofDigit (d : Nat) : (Mode.ofDigit d).toDigit = d := by
  unfold Mode.ofDigit
  split <;> rfl

theorem Mode.ofDigit_toDigit {m : Mode} (h : m.wellFormed = true) : Mode.ofDigit m.toDigit = m := by
  cases m with
  | unrecognized d =>
    obtain ⟨h3, -⟩ : 3 ≤ d ∧ d ≤ 9 := by simpa [Mode.wellFormed] using h
    obtain ⟨d, rfl⟩ := Nat.exists_eq_add_of_le' h3
    rfl
  | _ => rfl

theorem Mode.toDigit_le_nine {m : Mode} (h : m.wellFormed = true) : m.toDigit ≤ 9 := by
  cases m with
  | unrecognized d => exact (by simpa [Mode.wellFormed] using h : 3 ≤ d ∧ d ≤ 9).2
  | _ => decide

theorem Mode.ofDigit_wellFormed {d : Nat} (h : d ≤ 9) : (Mode.ofDigit d).wellFormed = true := by
  interval_cases d <;> rfl

/-! An instruction as an opcode and its operands (R53) -/

theorem Opcode.nparams_le_three (op : Opcode) : op.nparams ≤ 3 := by cases op <;> decide

@[simp] theorem Instr.length_operands (i : Instr) : i.operands.length = i.opcode.nparams := by cases i <;> rfl

@[simp] theorem Instr.opcode_build (op : Opcode) (p : Nat → Operand) : (Instr.build op p).opcode = op := by
  cases op <;> rfl

@[simp] theorem Instr.operands_build (op : Opcode) (p : Nat → Operand) :
    (Instr.build op p).operands = (List.range op.nparams).map fun j => p (j + 1) := by
  cases op <;> rfl

/-- An instruction is built from its opcode and its operands. -/
theorem Instr.build_getD_operands (i : Instr) (d : Operand) :
    Instr.build i.opcode (fun k => i.operands.getD (k - 1) d) = i := by
  cases i <;> rfl

/-- Opcode and operands determine the instruction. -/
theorem Instr.ext_opcode_operands {i i' : Instr} (hop : i.opcode = i'.opcode) (hps : i.operands = i'.operands) :
    i = i' := by
  rw [← i.build_getD_operands ⟨.position, 0⟩, hop, hps, i'.build_getD_operands]

/-- An instruction is well-formed if its operands are. -/
theorem Instr.wellFormed_iff (i : Instr) : i.wellFormed = true ↔ ∀ p ∈ i.operands, p.wellFormed = true := by
  cases i <;> simp [Instr.wellFormed, Instr.operands, and_assoc]

@[simp] theorem length_encode (i : Instr) : (encode i).length = i.opcode.nparams + 1 := by simp [encode]

@[simp] theorem toNat_encodeWord (op : Opcode) (ms : List Nat) :
    (encodeWord op ms).toNat = op.number + 100 * ofDigits ms := Int.toNat_natCast _

/-- The words after the first are the raw values (R46). -/
theorem encode_getD_succ (i : Instr) (j : Nat) :
    (encode i).getD (j + 1) 0 = (i.operands.map fun p => p.raw).getD j 0 := List.getD_cons_succ

/-! Decoding what was encoded (R55) -/

/-- The canonical word of well-formed operands has their digits as its mode digits. -/
theorem modeDigits_encodeWord {i : Instr} (hwf : i.wellFormed = true) :
    modeDigits i.opcode.nparams (encodeWord i.opcode (i.operands.map fun p => p.mode.toDigit)).toNat =
      i.operands.map fun p => p.mode.toDigit := by
  have hop : i.opcode.number < 100 := by cases i.opcode <;> decide
  have hms : ∀ m ∈ i.operands.map fun p => p.mode.toDigit, m ≤ 9 := by
    intro m hm
    obtain ⟨p, hp, rfl⟩ := List.mem_map.mp hm
    exact Mode.toDigit_le_nine (i.wellFormed_iff.mp hwf p hp)
  simpa using modeDigits_ofDigits hms hop

/-- The parameter read from the digit and the raw value of a well-formed operand is the operand. -/
theorem paramOf_of_wellFormed {ps : List Operand} {raw : Nat → Int} {j : Nat} (hj : j < ps.length)
    (hwf : ps[j].wellFormed = true) (hraw : raw (j + 1) = ps[j].raw) :
    paramOf (ps.map fun p => p.mode.toDigit) raw (j + 1) = ps[j] := by
  simp [paramOf, hj, hraw, Mode.ofDigit_toDigit hwf]

/-- Decoding the canonical words of a well-formed instruction gives it back. -/
theorem decode_encode {i : Instr} (hwf : i.wellFormed = true) : decode (encode i) = .ok i := by
  refine (decodeWith_of_number _ (Int.natCast_nonneg _) (Laws.Encoded.encodeWord_mod i.opcode _)).trans ?_
  refine congrArg _ (Instr.ext_opcode_operands (Instr.opcode_build _ _) ?_)
  rw [Instr.operands_build]
  refine List.ext_getElem (by simp) fun j _ hj => ?_
  have hraw : (encode i).getD (j + 1) 0 = i.operands[j].raw := by
    rw [encode_getD_succ, List.getD_eq_getElem _ _ (by simpa using hj), List.getElem_map]
  rw [List.getElem_map, List.getElem_range]
  refine (congrArg (fun ms => paramOf ms _ (j + 1)) (modeDigits_encodeWord hwf)).trans ?_
  exact paramOf_of_wellFormed hj (i.wellFormed_iff.mp hwf _ (List.getElem_mem hj)) hraw

/-- Settles O1: the opcode field and the mode digits of the canonical word are the instruction's own. -/
theorem decodeOfEncodeIsTheInstruction : Obligations.DecodeOfEncodeIsTheInstruction := fun _ => decode_encode

/-! Encoding what was decoded (R46 to R50) -/

/-- A word that decodes is not negative, its opcode field is the opcode's number, and its mode digits are those of the
opcode's parameters. -/
theorem decodeWord_eq_ok {w : Int} {op : Opcode} {ms : List Nat} (h : decodeWord w = .ok (op, ms)) :
    0 ≤ w ∧ w % 100 = op.number ∧ ms = modeDigits op.nparams w.toNat := by
  have hw : 0 ≤ w := by
    by_contra hneg
    cases h.symm.trans (decodeWord_of_neg (not_le.mp hneg))
  by_cases hop : ∃ op' : Opcode, w % 100 = op'.number
  · obtain ⟨op', hop'⟩ := hop
    cases h.symm.trans (decodeWord_of_number hw hop')
    exact ⟨hw, hop', rfl⟩
  · cases h.symm.trans (decodeWord_of_no_number hw (not_exists.mp hop))

/-- What decodes is the opcode of the first word with the parameters its digits and the other words give. -/
theorem decodeWith_eq_ok {w : Int} {raw : Nat → Int} {i : Instr} (h : decodeWith w raw = .ok i) :
    0 ≤ w ∧ w % 100 = i.opcode.number ∧
      i.operands = (List.range i.opcode.nparams).map fun j =>
        paramOf (modeDigits i.opcode.nparams w.toNat) raw (j + 1) := by
  unfold decodeWith at h
  split at h
  next => cases h
  next op ms hop =>
    cases h
    obtain ⟨hw, hnum, rfl⟩ := decodeWord_eq_ok hop
    exact ⟨hw, by simpa using hnum, by simp⟩

section
variable {w : Int} {raw : Nat → Int} {i : Instr} (h : decodeWith w raw = .ok i)
include h

/-- The digits of a decoded instruction's operands are the mode digits of its word. -/
theorem operands_toDigit_of_decodeWith :
    (i.operands.map fun p => p.mode.toDigit) = modeDigits i.opcode.nparams w.toNat := by
  obtain ⟨-, -, hps⟩ := decodeWith_eq_ok h
  rw [hps, List.map_map]
  refine List.ext_getElem (by simp) fun j _ hj => ?_
  simp [paramOf, List.getElem?_eq_getElem hj]

/-- The raw values of a decoded instruction's operands are the words at the offsets of its parameters. -/
theorem operands_raw_of_decodeWith :
    (i.operands.map fun p => p.raw) = (List.range i.opcode.nparams).map fun j => raw (j + 1) := by
  obtain ⟨-, -, hps⟩ := decodeWith_eq_ok h
  rw [hps, List.map_map]
  rfl

/-- A decoded instruction is well-formed. -/
theorem wellFormed_of_decodeWith : i.wellFormed = true := by
  obtain ⟨-, -, hps⟩ := decodeWith_eq_ok h
  rw [Instr.wellFormed_iff, hps]
  intro p hp
  obtain ⟨j, hj, rfl⟩ := List.mem_map.mp hp
  have hj : j < (modeDigits i.opcode.nparams w.toNat).length := by simpa using hj
  refine Mode.ofDigit_wellFormed (modeDigits_le_nine i.opcode.nparams w.toNat _ ?_)
  rw [Nat.add_sub_cancel, List.getD_eq_getElem _ _ hj]
  exact List.getElem_mem hj

/-- The canonical word of a decoded instruction is its word less the digits that are not examined. -/
theorem encodeWord_of_decodeWith :
    encodeWord i.opcode (i.operands.map fun p => p.mode.toDigit) = w % 10 ^ (i.opcode.nparams + 2) := by
  obtain ⟨hw, hnum, -⟩ := decodeWith_eq_ok h
  rw [operands_toDigit_of_decodeWith h, encodeWord, ofDigits_modeDigits]
  lift w to ℕ using hw
  have hnum : w % 100 = i.opcode.number := by exact_mod_cast hnum
  have hsplit : w % 10 ^ (i.opcode.nparams + 2) = w % 100 + 100 * (w / 100 % 10 ^ i.opcode.nparams) := by
    rw [Nat.pow_add', ← Nat.mod_mul]
  rw [← hnum, Int.toNat_natCast, ← hsplit]
  push_cast
  rfl

end

/-- Settles O4: digit by digit for the first word, offset by offset for the others. -/
theorem decodedWordsAreCanonicalUpToUnusedDigits : Obligations.DecodedWordsAreCanonicalUpToUnusedDigits := by
  intro ws i h
  obtain ⟨hw, -, -⟩ := decodeWith_eq_ok h
  refine ⟨wellFormed_of_decodeWith h, hw, encodeWord_of_decodeWith h, fun k hk hkn => ?_⟩
  obtain ⟨j, rfl⟩ := Nat.exists_eq_add_of_le' hk
  rw [encode_getD_succ, operands_raw_of_decodeWith h, List.getD_eq_getElem _ _ (by simpa using hkn)]
  simp

/-- Settles O5: the decoder runs on each list of words. -/
theorem sampleWordsDecode : Obligations.SampleWordsDecode :=
  ⟨rfl, rfl, rfl, rfl, rfl, rfl, rfl, rfl, rfl, rfl, rfl, rfl⟩

/-! Decoding what was assembled (R58) -/

/-- All of a list's answers are the list's elements. -/
theorem allSome_eq_some {α : Type} {xs : List (Option α)} {ys : List α} (h : allSome xs = some ys) :
    xs = ys.map some := by
  induction xs generalizing ys with
  | nil => cases h; rfl
  | cons x xs ih =>
    cases x with
    | none => cases h
    | some x =>
      obtain ⟨ys, hys, rfl⟩ := Option.map_eq_some_iff.mp h
      rw [ih hys, List.map_cons]

/-- An operand form stands for an operand whose mode is a digit. -/
theorem AsmOperand.resolve_wellFormed {labels : List (List Char × Nat)} {p : AsmOperand} {q : Operand}
    (h : p.resolve labels = some q) : q.wellFormed = true := by
  cases p <;> obtain ⟨v, -, rfl⟩ := Option.map_eq_some_iff.mp h <;> rfl

/-- An instruction line that emits words has operands that resolve, as many as its opcode has, and emits the canonical words
of the instruction with them. -/
theorem AsmItem.emit_instr_eq_some {labels : List (List Char × Nat)} {op : Opcode} {ps : List AsmOperand} {ws : List Int}
    (h : (AsmItem.instr op ps).emit labels = some ws) :
    ∃ i : Instr, i.opcode = op ∧ i.operands.map some = ps.map (AsmOperand.resolve labels) ∧ ws = encode i := by
  simp only [AsmItem.emit, AsmItem.expand] at h
  split at h
  next => cases h
  next qs hqs =>
    split at h
    next hlen =>
      cases h
      refine ⟨_, Instr.opcode_build _ _, ?_, rfl⟩
      rw [allSome_eq_some hqs, Instr.operands_build, ← hlen]
      exact congrArg _ (List.ext_getElem (by simp) fun j _ hj => by simp [hj])
    next => cases h

/-- Settles O54: the operands resolve to well-formed ones, so the canonical words decode. -/
theorem assembledInstructionDecodes : Obligations.AssembledInstructionDecodes := by
  intro labels op ps ws h
  obtain ⟨i, hop, hps, rfl⟩ := AsmItem.emit_instr_eq_some h
  refine ⟨i, decode_encode (i.wellFormed_iff.mpr fun q hq => ?_), hop, rfl, hps⟩
  have hmem : some q ∈ ps.map (AsmOperand.resolve labels) := hps ▸ List.mem_map_of_mem hq
  obtain ⟨p, -, hp⟩ := List.mem_map.mp hmem
  exact AsmOperand.resolve_wellFormed hp

end Sys2Proof
end

section
/-!
PROOFS. The faults an instruction can raise (60_exceptions.md section 1), and with them the invariant of the machine
(10_state.md sections 3 to 5).
-/
namespace Sys2Proof.Machine

/-! What resolving a parameter raises (R53, R64, R65) -/

/-- Reading an address raises InvalidAddress for a negative one. -/
theorem State.readAddr_eq_error {s : State} {k : Nat} {addr : Int} {r : Raise} (h : s.readAddr k addr = .error r) :
    addr < 0 ∧ r = ⟨.invalidAddress, k, addr⟩ := by
  by_cases ha : addr < 0
  · cases h.symm.trans (s.readAddr_of_neg k ha); exact ⟨ha, rfl⟩
  · cases h.symm.trans (s.readAddr_of_nonneg k (not_lt.mp ha))

/-- Checking an address raises InvalidAddress for a negative one. -/
theorem checkAddr_eq_error {k : Nat} {addr : Int} {r : Raise} (h : checkAddr k addr = .error r) :
    addr < 0 ∧ r = ⟨.invalidAddress, k, addr⟩ := by
  by_cases ha : addr < 0
  · cases h.symm.trans (checkAddr_of_neg k ha); exact ⟨ha, rfl⟩
  · cases h.symm.trans (checkAddr_of_nonneg k (not_lt.mp ha))

/-- `r.Blames k legal`: `r` is raised on behalf of parameter `k`, by its negative address if its mode is legal and by its
mode if not. -/
structure Raise.Blames (r : Raise) (k : Nat) (legal : Bool) : Prop where
  param_eq : r.param = k
  cause : (legal = true ∧ r.kind = .invalidAddress ∧ r.detail < 0) ∨ (legal = false ∧ r.kind = .invalidAddressingMode)

/-- A fault raised on behalf of a parameter is not InvalidOpcode. -/
theorem Raise.Blames.kind_ne_invalidOpcode {r : Raise} {k : Nat} {legal : Bool} (h : r.Blames k legal) :
    r.kind ≠ .invalidOpcode := by
  obtain ⟨-, hkind, -⟩ | ⟨-, hkind⟩ := h.cause <;> simp [hkind]

/-- A read parameter raises the fault of its address or of its mode. -/
theorem State.readValue_blames {s : State} {k : Nat} {p : Operand} {r : Raise} (h : s.readValue k p = .error r) :
    r.Blames k (p.mode.legalFor .read) := by
  obtain ⟨m, raw⟩ := p
  cases m with
  | position => obtain ⟨hneg, rfl⟩ := State.readAddr_eq_error h; exact ⟨rfl, .inl ⟨rfl, rfl, hneg⟩⟩
  | relative => obtain ⟨hneg, rfl⟩ := State.readAddr_eq_error h; exact ⟨rfl, .inl ⟨rfl, rfl, hneg⟩⟩
  | immediate => cases h
  | unrecognized d => cases h; exact ⟨rfl, .inr ⟨rfl, rfl⟩⟩

/-- A write target raises the fault of its address or of its mode. -/
theorem State.effAddr_blames {s : State} {k : Nat} {p : Operand} {r : Raise} (h : s.effAddr k p = .error r) :
    r.Blames k (p.mode.legalFor .write) := by
  obtain ⟨m, raw⟩ := p
  cases m with
  | position => obtain ⟨hneg, rfl⟩ := checkAddr_eq_error h; exact ⟨rfl, .inl ⟨rfl, rfl, hneg⟩⟩
  | relative => obtain ⟨hneg, rfl⟩ := checkAddr_eq_error h; exact ⟨rfl, .inl ⟨rfl, rfl, hneg⟩⟩
  | immediate => cases h; exact ⟨rfl, .inr ⟨rfl, rfl⟩⟩
  | unrecognized d => cases h; exact ⟨rfl, .inr ⟨rfl, rfl⟩⟩

/-- What a parameter raises is the fault of its address or of its mode. -/
theorem State.raiseOf_blames {s : State} {k : Nat} {ρ : Role} {p : Operand} {r : Raise}
    (h : s.raiseOf k (ρ, p) = some r) : r.Blames k (p.mode.legalFor ρ) := by
  cases ρ with
  | read =>
    cases hv : s.readValue k p with
    | error r' => simp only [State.raiseOf, hv] at h; cases h; exact State.readValue_blames hv
    | ok v => simp only [State.raiseOf, hv] at h; cases h
  | write =>
    cases hv : s.effAddr k p with
    | error r' => simp only [State.raiseOf, hv] at h; cases h; exact State.effAddr_blames hv
    | ok v => simp only [State.raiseOf, hv] at h; cases h

/-- A parameter that raises nothing has a legal mode. -/
theorem State.legalFor_of_raiseOf_eq_none {s : State} {k : Nat} {ρ : Role} {p : Operand}
    (h : s.raiseOf k (ρ, p) = none) : p.mode.legalFor ρ = true := by
  obtain ⟨m, raw⟩ := p
  cases m with
  | position => rfl
  | relative => rfl
  | immediate =>
    cases ρ with
    | read => rfl
    | write => cases h
  | unrecognized d => cases ρ <;> cases h

/-! The first fault along a list of parameters (R66) -/

/-- The first fault raised is one parameter's own. -/
theorem State.firstRaise_eq_some {s : State} {k : Nat} {ps : List (Role × Operand)} {r : Raise}
    (h : s.firstRaise k ps = some r) : ∃ j ρ p, (ρ, p) ∈ ps ∧ j < ps.length ∧ s.raiseOf (k + j) (ρ, p) = some r := by
  induction ps generalizing k with
  | nil => cases h
  | cons q ps ih =>
    cases hq : s.raiseOf k q with
    | some r' =>
      simp only [State.firstRaise, hq] at h
      exact ⟨0, q.1, q.2, List.mem_cons_self, Nat.succ_pos _, hq.trans h⟩
    | none =>
      simp only [State.firstRaise, hq] at h
      obtain ⟨j, ρ, p, hmem, hj, hr⟩ := ih h
      exact ⟨j + 1, ρ, p, List.mem_cons_of_mem q hmem, Nat.succ_lt_succ hj, by rwa [← Nat.add_assoc, Nat.add_right_comm]⟩

/-- Where no fault is raised every parameter's mode is legal. -/
theorem State.legalFor_of_firstRaise_eq_none {s : State} {k : Nat} {ps : List (Role × Operand)}
    (h : s.firstRaise k ps = none) : ∀ q ∈ ps, q.2.mode.legalFor q.1 = true := by
  induction ps generalizing k with
  | nil => simp
  | cons q ps ih =>
    cases hq : s.raiseOf k q with
    | some r => simp only [State.firstRaise, hq] at h; cases h
    | none =>
      simp only [State.firstRaise, hq] at h
      exact List.forall_mem_cons.mpr ⟨State.legalFor_of_raiseOf_eq_none hq, ih h⟩

/-- An instruction is legal if every parameter accepts its mode (R53). -/
theorem legal_iff (i : Instr) : i.legal = true ↔ ∀ q ∈ instrParams i, q.2.mode.legalFor q.1 = true := by
  cases i <;> simp [Instr.legal, instrParams, Instr.opcode, Opcode.format, Format.roles, Instr.operands, and_assoc]

theorem length_instrParams_le_three (i : Instr) : (instrParams i).length ≤ 3 := by
  rw [instrParams, List.length_zip]
  exact (Nat.min_le_left _ _).trans i.opcode.nparams_le_three

/-- The first fault of an instruction's parameters is raised on behalf of one of the three, by its address or its mode. -/
theorem firstRaise_blames {s : State} {i : Instr} {r : Raise} (h : s.firstRaise 1 (instrParams i) = some r) :
    ∃ k ρ p, (ρ, p) ∈ instrParams i ∧ 1 ≤ k ∧ k ≤ 3 ∧ r.Blames k (p.mode.legalFor ρ) := by
  obtain ⟨j, ρ, p, hmem, hj, hr⟩ := State.firstRaise_eq_some h
  have hlen := length_instrParams_le_three i
  exact ⟨1 + j, ρ, p, hmem, by omega, by omega, State.raiseOf_blames hr⟩

/-! The faults of an instruction -/

/-- An instruction that leaves Faulted raised the first fault of its parameters, or a taken jump's. -/
theorem exec_fault_cases {i : Instr} {s t : State} (h : exec i s = .next t) (hs : s.status ≠ .faulted)
    (ht : t.status = .faulted) :
    (∃ r, s.firstRaise 1 (instrParams i) = some r ∧ t = s.enterFault r) ∨
      (s.firstRaise 1 (instrParams i) = none ∧ JumpFault i s t) := by
  obtain ⟨hfirst, hlate⟩ := exec_reportsFirst i s
  cases hr : s.firstRaise 1 (instrParams i) with
  | some r => cases h.symm.trans (hfirst r hr); exact .inl ⟨r, rfl, rfl⟩
  | none => exact .inr ⟨rfl, hlate hr hs t h ht⟩

/-- An instruction with an illegal mode enters a fault of one of its parameters. -/
theorem exec_of_illegal {i : Instr} {s t : State} (h : exec i s = .next t) (hi : i.legal = false) :
    ∃ r : Raise, t = s.enterFault r ∧ r.kind ≠ .invalidOpcode := by
  cases hr : s.firstRaise 1 (instrParams i) with
  | none => exact absurd ((legal_iff i).mpr (State.legalFor_of_firstRaise_eq_none hr)) (by simp [hi])
  | some r =>
    cases h.symm.trans ((exec_reportsFirst i s).1 r hr)
    obtain ⟨k, ρ, p, -, -, -, hblames⟩ := firstRaise_blames hr
    exact ⟨r, rfl, hblames.kind_ne_invalidOpcode⟩

/-- An instruction whose modes are legal faults only by a negative address. -/
theorem exec_fault_of_legal {i : Instr} {s t : State} (h : exec i s = .next t) (hi : i.legal = true)
    (hs : s.status ≠ .faulted) (ht : t.status = .faulted) :
    ∃ r : Raise, t = s.enterFault r ∧ r.kind = .invalidAddress ∧ r.detail < 0 := by
  obtain ⟨r, hr, rfl⟩ | ⟨-, a, b, x, y, -, -, -, hneg, rfl⟩ := exec_fault_cases h hs ht
  · obtain ⟨k, ρ, p, hmem, -, -, hblames⟩ := firstRaise_blames hr
    obtain ⟨-, hkind, hneg⟩ | ⟨hillegal, -⟩ := hblames.cause
    · exact ⟨r, rfl, hkind, hneg⟩
    · exact absurd ((legal_iff i).mp hi _ hmem) (by simp [hillegal])
  · exact ⟨_, rfl, rfl, hneg⟩

/-- Settles O15: the first fault of the parameters is by a mode or by an address, as its parameter's mode is legal or not. -/
theorem illegalModesAlwaysFault : Obligations.IllegalModesAlwaysFault := fun _ _ _ h =>
  ⟨exec_of_illegal h, exec_fault_of_legal h⟩

/-! The invariant (R23, R29, R33, R104) -/

/-- An instruction that leaves Faulted raised a fault on behalf of one of its three parameters. -/
theorem exec_fault_param {i : Instr} {s t : State} (h : exec i s = .next t) (hs : s.status ≠ .faulted)
    (ht : t.status = .faulted) : ∃ r, t = s.enterFault r ∧ r.kind ≠ .invalidOpcode ∧ 1 ≤ r.param ∧ r.param ≤ 3 := by
  obtain ⟨r, hr, rfl⟩ | ⟨-, a, b, x, y, -, -, -, -, rfl⟩ := exec_fault_cases h hs ht
  · obtain ⟨_, ρ, p, -, hk, hk3, hblames⟩ := firstRaise_blames hr
    obtain rfl := hblames.param_eq
    exact ⟨r, rfl, hblames.kind_ne_invalidOpcode, hk, hk3⟩
  · exact ⟨_, rfl, by simp, by simp, by simp⟩

/-- Fault entry from a sound state records a sound fault. -/
theorem State.Inv.enterFault {s : State} {r : Raise} (hs : s.Inv) (hparam : r.param = 0 ↔ r.kind = .invalidOpcode)
    (h3 : r.param ≤ 3) : (s.enterFault r).Inv := by
  refine ⟨hs.1, by simp, fun f hf => ?_⟩
  cases hf
  exact ⟨rfl, rfl, hparam, h3⟩

/-- A state without a record that is not Faulted is sound if its memory is canonical. -/
theorem State.inv_of_fault_eq_none {s : State} (hmem : s.mem.wf = true) (hf : s.fault = none) (hs : s.status ≠ .faulted) :
    s.Inv :=
  ⟨hmem, iff_of_true hf hs, fun r hr => by simp [hf] at hr⟩

/-- A completed instruction keeps the memory canonical and the fault record as it is. -/
theorem Completes.mem_wf_and_fault {s t : State} {i : Instr} (h : Completes s i t) (hs : s.mem.wf = true) :
    t.mem.wf = true ∧ t.fault = s.fault := by
  cases h with
  | store v => exact ⟨Memory.write_wf _ v hs, rfl⟩
  | input => exact ⟨Memory.write_wf _ _ hs, rfl⟩
  | _ => exact ⟨hs, rfl⟩

/-- An instruction keeps the invariant of a state that is not Faulted. -/
theorem exec_inv {i : Instr} {s t : State} (hinv : s.Inv) (hs : s.status ≠ .faulted) (h : exec i s = .next t) :
    t.Inv := by
  by_cases ht : t.status = .faulted
  · obtain ⟨r, rfl, hkind, h1, h3⟩ := exec_fault_param h hs ht
    exact hinv.enterFault (iff_of_false (Nat.ne_of_gt h1) hkind) h3
  · obtain ⟨r, rfl⟩ | hc := exec_cases h
    · exact absurd rfl ht
    · obtain ⟨hmem, hiff, -⟩ := hinv
      obtain ⟨hwf, hf⟩ := hc.mem_wf_and_fault hmem
      exact State.inv_of_fault_eq_none hwf (hf.trans (hiff.mpr hs)) ht

/-- A step keeps the invariant. -/
theorem step_inv {s t : State} (hinv : s.Inv) (h : step s = .next t) : t.Inv := by
  obtain ⟨hs, ⟨d, -, rfl⟩ | ⟨i, -, h⟩⟩ := step_cases h
  · exact hinv.enterFault (by simp) (by simp)
  · exact exec_inv hinv (by simp [hs]) h

/-- Settles O36: a fault is recorded by fault entry on behalf of the opcode or of one of three parameters, and a completed
instruction stores at most one word and records nothing. -/
theorem stepKeepsTheInvariant : Obligations.StepKeepsTheInvariant := fun _ _ => step_inv

/-- Construction leaves a sound state. -/
theorem construct_inv (program input : List Int) : (State.construct program input).Inv :=
  State.inv_of_fault_eq_none (Memory.load_wf 0 program rfl) rfl (by simp [State.construct, State.reset])

/-- Settles O35: the reset state is a construction. -/
theorem invariantHoldsAtReset : Obligations.InvariantHoldsAtReset := construct_inv [] []

/-- A move keeps the invariant. -/
theorem Move.inv {s t : State} (h : Move s t) (hinv : s.Inv) : t.Inv := by
  cases h with
  | step _ h => exact step_inv hinv h
  | supply values hs =>
    obtain ⟨hmem, hiff, -⟩ := hinv
    have hs : s.status ≠ .faulted := fun hf => by simp [hf, Status.terminal] at hs
    refine State.inv_of_fault_eq_none hmem (hiff.mpr hs) ?_
    rw [State.supply_status]
    split
    next => simp
    next => exact hs
  | poke a v => exact ⟨Memory.write_wf a v hinv.1, hinv.2⟩

/-- Settles O37: construction leaves a sound state and every move keeps it so. -/
theorem reachableStatesSatisfyTheInvariant : Obligations.ReachableStatesSatisfyTheInvariant := by
  intro s h
  induction h with
  | construct program input => exact construct_inv program input
  | move s t _ h ih => exact h.inv ih

end Sys2Proof.Machine
end

section
/-!
PROOFS. The statements of 40_execution_cycle.md section 3 on which instruction a step runs: the one the words at `ip` stand
for, also where they are placed for the host (log entries 3 and 4), or the fault of a word that stands for none (R48, R61 to
R63, R72).
-/
namespace Sys2Proof

/-- A decoded instruction depends on the parameter words its opcode has, and on no other. -/
theorem decodeWith_congr {w : Int} {raw raw' : Nat → Int} {i : Instr} (h : decodeWith w raw = .ok i)
    (hraw : ∀ k, k < i.opcode.nparams → raw' (k + 1) = raw (k + 1)) : decodeWith w raw' = .ok i := by
  obtain ⟨hw, hnum, hps⟩ := decodeWith_eq_ok h
  rw [decodeWith_of_number raw' hw hnum]
  refine congrArg _ (Instr.ext_opcode_operands (Instr.opcode_build _ _) ?_)
  rw [Instr.operands_build, hps]
  refine List.map_congr_left fun j hj => ?_
  simp only [paramOf, hraw j (List.mem_range.mp hj)]

end Sys2Proof

namespace Sys2Proof.Machine

section
variable {s : State} {i : Instr}

/-- Words at `ip` that decode to an instruction are fetched as that instruction. -/
theorem State.fetch_of_words {ws : List Int} (hdec : decode ws = .ok i)
    (hmem : ∀ k, k ≤ i.opcode.nparams → s.mem.read (s.ip + k) = ws.getD k 0) : s.fetch = .ok i := by
  have hword : s.instrWord = ws.getD 0 0 := hmem 0 (Nat.zero_le _)
  rw [State.fetch, hword]
  exact decodeWith_congr hdec fun k hk => hmem (k + 1) hk

/-- While Running a step runs the instruction that the words at `ip` decode to. -/
theorem step_of_words {ws : List Int} (hs : s.status = .running) (hdec : decode ws = .ok i)
    (hmem : ∀ k, k ≤ i.opcode.nparams → s.mem.read (s.ip + k) = ws.getD k 0) : step s = exec i s :=
  step_of_fetch hs (State.fetch_of_words hdec hmem)

/-- While Running a word that does not decode raises InvalidOpcode with the decoder's detail (R62, R101). -/
theorem step_of_decodeWord_error {d : Int} (hs : s.status = .running) (hd : decodeWord s.instrWord = .error d) :
    step s = .next (s.enterFault ⟨.invalidOpcode, 0, d⟩) := by
  simp only [step_running hs, stepBody, State.fetch, decodeWith, hd]

end

/-- A word placed for the host is read back at `ip`, with 0 as each parameter word. -/
theorem State.withFetchWord_mem_read {s : State} (nbits w : Nat) {k : Nat} (hwf : s.mem.wf = true) (hk : k ≤ 3) :
    (s.withFetchWord nbits w).mem.read (s.ip + k) = (tableWords nbits w).getD k 0 := by
  have hlen : k < (tableWords nbits w).length := Nat.lt_succ_of_le hk
  refine (Memory.read_load_add s.ip k (tableWords nbits w) hwf).trans ?_
  rw [List.getD_eq_getElem _ _ hlen, List.getD_eq_getElem _ _ hlen]

/-- The decoder accepts a table word whose instruction it answers. -/
theorem decode_tableWords {nbits w : Nat} {i : Instr} (h : decodeTableWord nbits w = some i) :
    decode (tableWords nbits w) = .ok i := by
  unfold decodeTableWord at h
  split at h
  next hi => cases h; exact hi
  next => cases h

/-! The statements -/

/-- Settles O6: of the four words the decoder reads those the opcode has. -/
theorem stepRunsTheDecodedInstruction : Obligations.StepRunsTheDecodedInstruction := by
  refine fun s i hs hdec => step_of_words hs hdec fun k hk => ?_
  have hk3 : k ≤ 3 := hk.trans i.opcode.nparams_le_three
  interval_cases k <;> rfl

/-- Settles O7: the canonical words decode to the instruction, and the decoder reads no other word. -/
theorem stepRunsTheEncodedInstruction : Obligations.StepRunsTheEncodedInstruction := fun _ i hs hwf hmem =>
  step_of_words hs (decode_encode hwf) fun k hk => hmem k (by rw [length_encode]; omega)

/-- Settles O8: the decoder rejects the word, with its opcode field or with the word itself as detail. -/
theorem unknownOpcodeFaults : Obligations.UnknownOpcodeFaults := fun _ hs =>
  ⟨fun hw hno => step_of_decodeWord_error hs (decodeWord_of_no_number hw fun op hop => hno (hop ▸ op.number_mem)),
    fun hw => step_of_decodeWord_error hs (decodeWord_of_neg hw)⟩

/-- Settles O9: decoding answers a fault or an instruction, and every instruction answers a next state. -/
theorem runningStepAnswersANextState : Obligations.RunningStepAnswersANextState := fun _ => exists_step_of_running

/-- Settles O52: the placed words are read back from canonical memory, and the machine is Running. -/
theorem placedWordIsRunNext : Obligations.PlacedWordIsRunNext := fun _ nbits w i hwf hi =>
  step_of_words rfl (decode_tableWords hi) fun _ hk =>
    State.withFetchWord_mem_read nbits w hwf (hk.trans i.opcode.nparams_le_three)

/-- Settles O41: the empty program leaves the memory empty, where the first word reads as 0. -/
theorem resetIsTheEmptyConstruction : Obligations.ResetIsTheEmptyConstruction :=
  ⟨rfl, step_of_decodeWord_error rfl rfl⟩

end Sys2Proof.Machine
end

section
/-!
PROOFS. The statements of 20_memory.md: a canonical memory is what it reads as (section 1), and fetch is coherent with stores
(section 4).
-/
namespace Sys2Proof.Machine

/-- A listed cell reads as its word. -/
@[simp] theorem Memory.read_cons_same (a : Nat) (v : Int) (m : Memory) : Memory.read ((a, v) :: m) a = v := if_pos rfl

/-- Every other address reads as in the rest of the list. -/
theorem Memory.read_cons_other {a b : Nat} (v : Int) (m : Memory) (hb : b ≠ a) :
    Memory.read ((a, v) :: m) b = m.read b := if_neg hb

/-- A canonical list is an address, a word that is not 0, and a canonical list above the address. -/
theorem Memory.wfFrom_cons {lo a : Nat} {v : Int} {m : Memory} (h : Memory.wfFrom lo ((a, v) :: m) = true) :
    lo ≤ a ∧ v ≠ 0 ∧ Memory.wfFrom (a + 1) m = true := by
  simpa [Memory.wfFrom, and_assoc] using h

/-- The first listed address of a canonical memory is no greater than that of one that reads alike. -/
theorem Memory.head_le {lo a b : Nat} {v w : Int} {m m' : Memory} (h : Memory.wfFrom lo ((a, v) :: m) = true)
    (h' : Memory.wfFrom lo ((b, w) :: m') = true)
    (hread : ∀ x, Memory.read ((a, v) :: m) x = Memory.read ((b, w) :: m') x) : a ≤ b := by
  obtain ⟨-, -, htail⟩ := Memory.wfFrom_cons h
  obtain ⟨-, hw, -⟩ := Memory.wfFrom_cons h'
  by_contra hlt
  have hb := hread b
  rw [Memory.read_cons_same, Memory.read_cons_other v m (by omega), Memory.read_below htail (by omega)] at hb
  exact hw hb.symm

/-- The first listed cell of a canonical memory does not read as 0. -/
theorem Memory.read_head_ne_zero {lo a : Nat} {v : Int} {m : Memory} (h : Memory.wfFrom lo ((a, v) :: m) = true) :
    Memory.read ((a, v) :: m) a ≠ 0 := by
  rw [Memory.read_cons_same]
  exact (Memory.wfFrom_cons h).2.1

/-- Canonical memories that read alike are equal. -/
theorem Memory.ext_read {lo : Nat} {m m' : Memory} (h : Memory.wfFrom lo m = true) (h' : Memory.wfFrom lo m' = true)
    (hread : ∀ a, m.read a = m'.read a) : m = m' := by
  induction m generalizing lo m' with
  | nil =>
    cases m' with
    | nil => rfl
    | cons c m' => exact absurd (hread c.1).symm (Memory.read_head_ne_zero h')
  | cons c m ih =>
    cases m' with
    | nil => exact absurd (hread c.1) (Memory.read_head_ne_zero h)
    | cons c' m' =>
      obtain ⟨a, v⟩ := c
      obtain ⟨b, w⟩ := c'
      obtain rfl : a = b := (Memory.head_le h h' hread).antisymm (Memory.head_le h' h fun x => (hread x).symm)
      obtain rfl : v = w := by simpa using hread a
      obtain ⟨-, -, hm⟩ := Memory.wfFrom_cons h
      obtain ⟨-, -, hm'⟩ := Memory.wfFrom_cons h'
      refine congrArg _ (ih hm hm' fun x => ?_)
      by_cases hx : x = a
      · rw [hx, Memory.read_below hm a.lt_succ_self, Memory.read_below hm' a.lt_succ_self]
      · rw [← Memory.read_cons_other v m hx, hread x, Memory.read_cons_other v m' hx]

/-- Settles O38: a canonical memory is determined by its reads, and writing back what an address reads as changes none. -/
theorem memoryIsItsReads : Obligations.MemoryIsItsReads := by
  refine ⟨fun _ _ => Memory.ext_read, fun m a hwf => Memory.ext_read (Memory.write_wf a _ hwf) hwf fun b => ?_⟩
  rw [Memory.read_write a b _ hwf]
  split
  next hb => rw [hb]
  next => rfl

/-- Settles O39: each word of the fetch is a read after the write. -/
theorem fetchSeesEveryStore : Obligations.FetchSeesEveryStore := by
  intro s a v hwf
  simp only [State.fetch, State.instrWord, State.writeMem_mem, State.writeMem_ip, Memory.read_write a _ v hwf,
    eq_comm (a := a)]

end Sys2Proof.Machine
end

section
/-!
PROOFS. The frames of 41_arithmetic.md to 45_base_and_halt.md: what each instruction leaves unchanged, and the instruction
pointer, which every instruction writes (R18).
-/
namespace Sys2Proof.Machine

/-! The storing forms -/

theorem mem_storing {i : Instr} {a b c : Operand} : i ∈ [Instr.add a b c, .mul a b c, .lt a b c, .eq a b c] ↔
    i = .add a b c ∨ i = .mul a b c ∨ i = .lt a b c ∨ i = .eq a b c := by simp

/-- Each of ADD, MUL, LT and EQ reads two parameters and stores a function of their values at the third. -/
theorem storing_binary {i : Instr} {a b c : Operand} (hi : i ∈ [Instr.add a b c, .mul a b c, .lt a b c, .eq a b c])
    (s : State) : instrParams i = [(.read, a), (.read, b), (.write, c)] ∧ ∃ f, exec i s = s.binary f a b c := by
  obtain rfl | rfl | rfl | rfl := mem_storing.mp hi
  · exact ⟨rfl, _, exec_add a b c s⟩
  · exact ⟨rfl, _, exec_mul a b c s⟩
  · exact ⟨rfl, _, exec_lt a b c s⟩
  · exact ⟨rfl, _, exec_eq a b c s⟩

/-- A storing form enters the first fault of its parameters, or stores at its target, which resolves. -/
theorem storing_cases {i : Instr} {a b c : Operand} {s t : State}
    (hi : i ∈ [Instr.add a b c, .mul a b c, .lt a b c, .eq a b c]) (h : exec i s = .next t) :
    (∃ r, s.firstRaise 1 (instrParams i) = some r ∧ t = s.enterFault r) ∨
      ∃ adr v, s.effAddr 3 c = .ok adr ∧ t = (s.writeMem adr v).advance 3 := by
  obtain ⟨hps, f, hf⟩ := storing_binary hi s
  rw [hps]
  obtain ⟨r, hr, ht⟩ | ⟨x, hx, h⟩ := State.withRead_cases (hf.symm.trans h)
  · cases ht; exact .inl ⟨r, by simp only [State.firstRaise, State.raiseOf, hr], rfl⟩
  obtain ⟨r, hr, ht⟩ | ⟨y, hy, h⟩ := State.withRead_cases h.symm
  · cases ht; exact .inl ⟨r, by simp only [State.firstRaise, State.raiseOf, hx, hr], rfl⟩
  obtain ⟨r, hr, ht⟩ | ⟨adr, hadr, ht⟩ := State.withTarget_cases h.symm
  · cases ht; exact .inl ⟨r, by simp only [State.firstRaise, State.raiseOf, hx, hy, hr], rfl⟩
  · cases ht; exact .inr ⟨adr, _, hadr, rfl⟩

/-- Settles O26: fault entry changes no memory, and a store changes the target's cell alone. -/
theorem storingFormsFrame : Obligations.StoringFormsFrame := by
  intro s t i a b c hi h
  obtain ⟨r, hr, rfl⟩ | ⟨adr, v, hadr, rfl⟩ := storing_cases hi h
  · exact ⟨rfl, rfl, rfl, .inr ⟨r, hr, rfl⟩, fun _ _ _ _ => rfl, fun _ _ _ => rfl⟩
  · refine ⟨rfl, rfl, rfl, .inl ⟨rfl, rfl⟩, fun adr' hadr' x hx => ?_, fun r hr => nomatch hadr.symm.trans hr⟩
    cases hadr.symm.trans hadr'
    exact Memory.read_write_other s.mem v hx

/-! IN -/

/-- Settles O27: the target raises or resolves; where it resolves, the queue is empty or holds a value. -/
theorem inputFrame : Obligations.InputFrame := by
  intro s t a h
  cases hadr : s.effAddr 1 a with
  | error r =>
    cases h.symm.trans (execInp_error hadr)
    exact ⟨rfl, rfl, .inr (.inr ⟨r, rfl, rfl⟩), fun _ _ _ _ => rfl, fun _ _ _ => rfl, fun _ _ => rfl⟩
  | ok adr =>
    cases hq : s.inq with
    | nil =>
      cases h.symm.trans (execInp_pause hadr hq)
      exact ⟨rfl, rfl, .inr (.inl ⟨rfl, by rw [← hq]; rfl⟩), fun _ _ _ _ => rfl, fun _ _ _ => rfl, fun _ _ => rfl⟩
    | cons v q =>
      cases h.symm.trans (execInp_input hadr hq)
      refine ⟨rfl, rfl, .inl ⟨rfl, rfl, v, rfl⟩, fun adr' hadr' x hx => ?_, nofun, nofun⟩
      cases hadr'
      exact Memory.read_write_other s.mem v hx

/-! OUT, JT, JF, ARB and HLT -/

/-- A completed instruction that stores nothing leaves memory and the input queue; OUT alone emits, ARB alone adjusts the
base, HLT alone sets the status. -/
theorem Completes.nonStoring_frame {s t : State} {i : Instr} {a b : Operand}
    (hi : i ∈ [Instr.out a, .jt a b, .jf a b, .arb a, .hlt]) (h : Completes s i t) :
    t.mem = s.mem ∧ t.inq = s.inq ∧ (t.outq = s.outq ∨ i = .out a) ∧ (t.rb = s.rb ∨ i = .arb a) ∧
      t.fault = s.fault ∧ (t.status = s.status ∨ (i = .hlt ∧ t.status = .halted)) := by
  cases h with
  | store v hi' => obtain rfl | rfl | rfl | rfl := mem_storing.mp hi' <;> simp at hi
  | pause => simp at hi
  | input => simp at hi
  | output => exact ⟨rfl, rfl, .inr (by simpa using hi), .inl rfl, rfl, .inl rfl⟩
  | adjustBase => exact ⟨rfl, rfl, .inl rfl, .inr (by simpa using hi), rfl, .inl rfl⟩
  | halt => exact ⟨rfl, rfl, .inl rfl, .inl rfl, rfl, .inr ⟨rfl, rfl⟩⟩
  | jump => exact ⟨rfl, rfl, .inl rfl, .inl rfl, rfl, .inl rfl⟩
  | fallThrough => exact ⟨rfl, rfl, .inl rfl, .inl rfl, rfl, .inl rfl⟩

/-- Settles O28: the instruction enters a fault or completes. -/
theorem nonStoringFormsFrame : Obligations.NonStoringFormsFrame := by
  intro s t i a b hi h
  obtain ⟨r, rfl⟩ | hc := exec_cases h
  · exact ⟨fun _ => rfl, rfl, .inl rfl, .inl rfl, .inr (.inr ⟨r, rfl⟩)⟩
  · obtain ⟨hmem, hinq, houtq, hrb, hfault, hstatus⟩ := hc.nonStoring_frame hi
    refine ⟨fun x => by rw [hmem], hinq, houtq, hrb, ?_⟩
    obtain hstatus | ⟨rfl, hstatus⟩ := hstatus
    · exact .inl ⟨hstatus, hfault⟩
    · exact .inr (.inl ⟨rfl, hstatus, hfault⟩)

/-! The instruction pointer (R18, R70) -/

/-- The storing forms are four words long. -/
theorem length_encode_storing {i : Instr} {a b c : Operand}
    (hi : i ∈ [Instr.add a b c, .mul a b c, .lt a b c, .eq a b c]) : (encode i).length = 4 := by
  obtain rfl | rfl | rfl | rfl := mem_storing.mp hi <;> rfl

/-- A completed instruction stays at its own address where it pauses, goes on past its own words, or jumps. -/
theorem Completes.ip_cases {s t : State} {i : Instr} (h : Completes s i t) :
    (t.ip = s.ip ∧ t.status = .awaitingInput) ∨ t.ip = s.ip + (encode i).length ∨
      ∃ a b x y, ((i = .jt a b ∧ x ≠ 0) ∨ (i = .jf a b ∧ x = 0)) ∧ s.readValue 1 a = .ok x ∧
        s.readValue 2 b = .ok y ∧ 0 ≤ y ∧ t.ip = y.toNat := by
  cases h with
  | store v hi => exact .inr (.inl (by rw [length_encode_storing hi]; rfl))
  | pause => exact .inl ⟨rfl, rfl⟩
  | jump hi hx hy hy0 => exact .inr (.inr ⟨_, _, _, _, hi, hx, hy, hy0, rfl⟩)
  | fallThrough hi => obtain ⟨rfl, -⟩ | ⟨rfl, -⟩ := hi <;> exact .inr (.inl rfl)
  | _ => exact .inr (.inl rfl)

/-- Settles O29: a step enters a fault, which leaves `ip`, or completes the fetched instruction. -/
theorem instructionPointerWriters : Obligations.InstructionPointerWriters := by
  refine ⟨fun s t h => ?_, fun _ _ _ _ => ⟨rfl, rfl⟩, fun _ _ => rfl⟩
  obtain ⟨r, rfl⟩ | ⟨i, hi, hc⟩ := step_completes h
  · exact .inl ⟨rfl, .inl rfl⟩
  obtain ⟨hip, hs⟩ | hip := hc.ip_cases
  · exact .inl ⟨hip, .inr hs⟩
  · exact .inr ⟨i, hi, hip⟩

end Sys2Proof.Machine
end

section
/-!
PROOFS. The statements of 10_state.md sections 4 and 5 on what a program observes, on finished machines (R22, R29, R106) and on
the output queue (R26).
-/
namespace Sys2Proof.Machine

/-! What an instruction does not read -/

/-- `ans'` makes the change of the instruction pointer, the base, memory and the input queue that `ans` makes, and appends the
same values to the output queue, from `s'` what `ans` appends from `s`. -/
def SameEffect (s s' : State) (ans ans' : Answer) : Prop :=
  ∀ t, ans = .next t → ∃ (u : State) (e : List Int), ans' = .next u ∧
    u.ip = t.ip ∧ u.rb = t.rb ∧ u.mem = t.mem ∧ u.inq = t.inq ∧ t.outq = s.outq ++ e ∧ u.outq = s'.outq ++ e

/-- The state with another status, fault record and output queue, which no program reads. -/
def State.withUnread (s : State) (st : Status) (f : Option FaultRecord) (q : List Int) : State :=
  { s with status := st, fault := f, outq := q }

section
variable {s : State} {st : Status} {f : Option FaultRecord} {q : List Int}

/-- Two next states that agree on what a program reads, and emit nothing, have the same effect. -/
theorem SameEffect.of_next {s s' t u : State} (hip : u.ip = t.ip) (hrb : u.rb = t.rb) (hmem : u.mem = t.mem)
    (hinq : u.inq = t.inq) (ht : t.outq = s.outq) (hu : u.outq = s'.outq) : SameEffect s s' (.next t) (.next u) := by
  intro t' h
  cases h
  exact ⟨u, [], rfl, hip, hrb, hmem, hinq, by simp [ht], by simp [hu]⟩

/-- Reading a parameter has the same effect whatever is unread, if what follows does. -/
theorem State.withRead_sameEffect {k : Nat} {p : Operand} {go go' : Int → Answer}
    (hgo : ∀ v, SameEffect s (s.withUnread st f q) (go v) (go' v)) :
    SameEffect s (s.withUnread st f q) (s.withRead k p go) ((s.withUnread st f q).withRead k p go') := by
  have hread : (s.withUnread st f q).readValue k p = s.readValue k p := rfl
  cases hv : s.readValue k p with
  | error r =>
    rw [State.withRead_error go hv, State.withRead_error go' (hread.trans hv)]
    exact .of_next rfl rfl rfl rfl rfl rfl
  | ok v => rw [State.withRead_ok go hv, State.withRead_ok go' (hread.trans hv)]; exact hgo v

/-- Resolving a target has the same effect whatever is unread, if what follows does. -/
theorem State.withTarget_sameEffect {k : Nat} {p : Operand} {go go' : Nat → Answer}
    (hgo : ∀ adr, SameEffect s (s.withUnread st f q) (go adr) (go' adr)) :
    SameEffect s (s.withUnread st f q) (s.withTarget k p go) ((s.withUnread st f q).withTarget k p go') := by
  have haddr : (s.withUnread st f q).effAddr k p = s.effAddr k p := rfl
  cases hv : s.effAddr k p with
  | error r =>
    rw [State.withTarget_error go hv, State.withTarget_error go' (haddr.trans hv)]
    exact .of_next rfl rfl rfl rfl rfl rfl
  | ok adr => rw [State.withTarget_ok go hv, State.withTarget_ok go' (haddr.trans hv)]; exact hgo adr

/-- A storing form has the same effect whatever is unread. -/
theorem State.binary_sameEffect (g : Int → Int → Int) (a b c : Operand) :
    SameEffect s (s.withUnread st f q) (s.binary g a b c) ((s.withUnread st f q).binary g a b c) :=
  State.withRead_sameEffect fun _ => State.withRead_sameEffect fun _ => State.withTarget_sameEffect fun _ =>
    .of_next rfl rfl rfl rfl rfl rfl

/-- A jump on known values has the same effect whatever is unread. -/
theorem State.branch_sameEffect (taken : Bool) (y : Int) :
    SameEffect s (s.withUnread st f q) (s.branch taken y) ((s.withUnread st f q).branch taken y) := by
  cases taken with
  | false => exact .of_next rfl rfl rfl rfl rfl rfl
  | true =>
    by_cases hy : y < 0
    · rw [State.branch_taken_of_neg hy, State.branch_taken_of_neg hy]; exact .of_next rfl rfl rfl rfl rfl rfl
    · rw [State.branch_taken (not_lt.mp hy), State.branch_taken (not_lt.mp hy)]; exact .of_next rfl rfl rfl rfl rfl rfl

/-- A jump has the same effect whatever is unread. -/
theorem State.jump_sameEffect (taken : Int → Bool) (a b : Operand) :
    SameEffect s (s.withUnread st f q) (s.withRead 1 a fun x => s.withRead 2 b fun y => s.branch (taken x) y)
      ((s.withUnread st f q).withRead 1 a fun x => (s.withUnread st f q).withRead 2 b fun y =>
        (s.withUnread st f q).branch (taken x) y) :=
  State.withRead_sameEffect fun _ => State.withRead_sameEffect fun _ => State.branch_sameEffect _ _

/-- IN has the same effect whatever is unread: it pauses or takes the head of the queue in both. -/
theorem execInp_sameEffect (a : Operand) :
    SameEffect s (s.withUnread st f q) (execInp a s) (execInp a (s.withUnread st f q)) := by
  refine State.withTarget_sameEffect fun adr => ?_
  have hinq : (s.withUnread st f q).inq = s.inq := rfl
  rw [hinq]
  cases s.inq with
  | nil => exact .of_next rfl rfl rfl rfl rfl rfl
  | cons v vs => exact .of_next rfl rfl rfl rfl rfl rfl

/-- OUT appends the same value whatever is unread. -/
theorem execOut_sameEffect (a : Operand) :
    SameEffect s (s.withUnread st f q) (execOut a s) (execOut a (s.withUnread st f q)) := by
  refine State.withRead_sameEffect fun v t ht => ?_
  cases ht
  exact ⟨_, [v], rfl, rfl, rfl, rfl, rfl, rfl, rfl⟩

/-- An instruction has the same effect whatever is unread. -/
theorem exec_sameEffect (i : Instr) : SameEffect s (s.withUnread st f q) (exec i s) (exec i (s.withUnread st f q)) := by
  cases i with
  | add a b c => exact State.binary_sameEffect _ a b c
  | mul a b c => exact State.binary_sameEffect _ a b c
  | lt a b c => exact State.binary_sameEffect _ a b c
  | eq a b c => exact State.binary_sameEffect _ a b c
  | inp a => exact execInp_sameEffect a
  | out a => exact execOut_sameEffect a
  | jt a b => exact State.jump_sameEffect _ a b
  | jf a b => exact State.jump_sameEffect _ a b
  | arb a => exact State.withRead_sameEffect fun _ => .of_next rfl rfl rfl rfl rfl rfl
  | hlt => exact .of_next rfl rfl rfl rfl rfl rfl

end

/-- Settles O31: two runs of the instruction, parameter by parameter. -/
theorem programCannotReadStatusFaultOrOutput : Obligations.ProgramCannotReadStatusFaultOrOutput :=
  fun i _ t _ _ _ h => exec_sameEffect i t h

/-! Finished machines (R22, R29) -/

/-- A finished machine makes no step and is supplied nothing: a move pokes it. -/
theorem Move.eq_writeMem_of_terminal {s t : State} (h : Move s t) (hs : s.status.terminal = true) :
    ∃ a v, t = s.writeMem a v := by
  cases h with
  | step _ h => rw [(step_cases h).1] at hs; cases hs
  | supply values hs' => cases hs.symm.trans hs'
  | poke a v => exact ⟨a, v, rfl⟩

/-- Settles O33: along the moves the machine stays finished, so every move is a poke. -/
theorem finishedMachinesStayFinished : Obligations.FinishedMachinesStayFinished := by
  intro s t hs h
  induction h with
  | refl => exact ⟨rfl, rfl, rfl, rfl, rfl, rfl⟩
  | tail _ h ih =>
    have hmid := congrArg Status.terminal ih.1
    obtain ⟨a, v, rfl⟩ := h.eq_writeMem_of_terminal (hmid.trans hs)
    exact ih

/-! The output queue (R26) -/

/-- A step leaves the output queue, or runs OUT, which appends its value. -/
theorem step_outq {s t : State} (h : step s = .next t) :
    t.outq = s.outq ∨ ∃ a v, s.fetch = .ok (.out a) ∧ s.readValue 1 a = .ok v ∧ t.outq = s.outq ++ [v] := by
  obtain ⟨r, rfl⟩ | ⟨i, hi, hc⟩ := step_completes h
  · exact .inl rfl
  cases hc with
  | output hv => exact .inr ⟨_, _, hi, hv, rfl⟩
  | _ => exact .inl rfl

/-- A move leaves every earlier output at its position. -/
theorem Move.outq_isPrefix {s t : State} (h : Move s t) : s.outq <+: t.outq := by
  cases h with
  | step _ h =>
    obtain ht | ⟨_, v, -, -, ht⟩ := step_outq h
    · rw [ht]
    · rw [ht]; exact List.prefix_append _ [v]
  | supply => exact List.prefix_rfl
  | poke => exact List.prefix_rfl

/-- Settles O34: one move appends at most one value, and along the moves the growths compose. -/
theorem outputOnlyGrows : Obligations.OutputOnlyGrows := by
  refine ⟨fun _ _ => step_outq, fun s t h => ?_⟩
  induction h with
  | refl => exact List.prefix_rfl
  | tail _ h ih => exact ih.trans h.outq_isPrefix

end Sys2Proof.Machine
end

section
/-!
PROOFS. The statements of 46_host_interface.md sections 2 and 3 on `run` (R90, R97), the pause of IN with `resume` (R77, R91,
R113), and the jump to its own address (R79, R119).
-/
namespace Sys2Proof.Machine

/-! What `run` answers, step by step -/

/-- Where `run` returns, the machine is not Running and reports itself. -/
theorem hostRun_returns {n : Nat} {s t : State} {r : Response} (h : hostRun n s = some (r, t)) :
    t.status ≠ .running ∧ r = t.report := by
  induction n generalizing s with
  | zero =>
    by_cases hs : s.status = .running
    · cases h.symm.trans (hostRun_zero_of_running hs)
    · cases h.symm.trans (hostRun_of_not_running 0 hs); exact ⟨hs, rfl⟩
  | succ n ih =>
    by_cases hs : s.status = .running
    · obtain ⟨u, hu⟩ := exists_step_of_running hs
      exact ih ((hostRun_succ_of_step n hu).symm.trans h)
    · cases h.symm.trans (hostRun_of_not_running (n + 1) hs); exact ⟨hs, rfl⟩

/-- Where `run` returns, it returns the same with more fuel. -/
theorem hostRun_mono {n m : Nat} {s : State} {x : Response × State} (h : hostRun n s = some x) (hnm : n ≤ m) :
    hostRun m s = some x := by
  induction n generalizing s m with
  | zero =>
    by_cases hs : s.status = .running
    · cases h.symm.trans (hostRun_zero_of_running hs)
    · exact (hostRun_of_not_running m hs).trans ((hostRun_of_not_running 0 hs).symm.trans h)
  | succ n ih =>
    by_cases hs : s.status = .running
    · obtain ⟨u, hu⟩ := exists_step_of_running hs
      obtain ⟨m, rfl⟩ := Nat.exists_eq_add_of_le' (n.succ_pos.trans_le hnm)
      rw [hostRun_succ_of_step m hu]
      exact ih ((hostRun_succ_of_step n hu).symm.trans h) (Nat.le_of_succ_le_succ hnm)
    · exact (hostRun_of_not_running m hs).trans ((hostRun_of_not_running (n + 1) hs).symm.trans h)

/-- A machine that steps to itself runs for ever. -/
theorem hostRun_of_step_self {s : State} (h : step s = .next s) (fuel : Nat) : hostRun fuel s = none := by
  induction fuel with
  | zero => exact hostRun_zero_of_running (step_cases h).1
  | succ n ih => rw [hostRun_succ_of_step n h, ih]

/-! The pause of IN (R77, R91) -/

/-- A Running machine at IN with a target that resolves and a value waiting takes the value. -/
theorem step_input {s : State} {a : Operand} {adr : Nat} {v : Int} {q : List Int} (hs : s.status = .running)
    (hi : s.fetch = .ok (.inp a)) (hadr : s.effAddr 1 a = .ok adr) (hq : s.inq = v :: q) :
    step s = .next { s with inq := q, mem := s.mem.write adr v, ip := s.ip + 2 } :=
  (step_of_fetch hs hi).trans (execInp_input hadr hq)

/-- A Running machine that paused is, once supplied, the machine before the pause with the values appended. -/
theorem State.supply_pause {s : State} (vs : List Int) (hs : s.status = .running) :
    (s.withStatus .awaitingInput).supply vs = s.withInq (s.inq ++ vs) := by
  rw [State.supply_of_awaitingInput vs rfl, ← hs]
  rfl

/-- A paused machine that is resumed runs on from the state before the pause with the values appended. -/
theorem hostResume_pause {s : State} (fuel : Nat) (vs : List Int) (hs : s.status = .running) :
    hostResume fuel vs (s.withStatus .awaitingInput) = hostRun fuel (s.withInq (s.inq ++ vs)) := by
  rw [hostResume_of_not_terminal fuel vs (.inr rfl), State.supply_pause vs hs]

/-! The statements -/

/-- Settles O42: fuel makes steps while Running, and is not used otherwise. -/
theorem runStepsWhileRunning : Obligations.RunStepsWhileRunning := by
  refine fun s => ⟨fun hs => ⟨hostRun_zero_of_running hs, fun n t ht => ?_⟩, fun n hs => ?_, fun n r hs hr => ?_⟩
  · exact hostRun_succ_of_step n ((step_running hs).trans ht)
  · obtain ⟨hrun, hfault⟩ : s.status ≠ .running ∧ s.status ≠ .faulted := by obtain hs | hs := hs <;> simp [hs]
    rw [hostRun_of_not_running n hrun, State.report_of_not_faulted hfault]
  · rw [hostRun_of_not_running n (by simp [hs]), State.report_of_fault hs hr]

/-- Settles O43: `run` returns the report of the state it stops in, and stops in the same state with more fuel. -/
theorem runReturnsOnceNotRunning : Obligations.RunReturnsOnceNotRunning := by
  intro n s t r h
  obtain ⟨ht, rfl⟩ := hostRun_returns h
  exact ⟨ht, State.report_of_not_faulted, fun _ => State.report_of_fault, fun _ => hostRun_mono h⟩

/-- Settles O45: a resumed machine fetches the same IN, which pauses again or takes the first value. -/
theorem pauseAndResume : Obligations.PauseAndResume := by
  intro s a adr hs hi hadr hq
  have hpause : step s = .next (s.withStatus .awaitingInput) := (step_of_fetch hs hi).trans (execInp_pause hadr hq)
  refine ⟨hpause, fun n => (hostResume_pause (n + 1) [] hs).trans ?_, fun n v vs =>
    (hostResume_pause (n + 1) (v :: vs) hs).trans ?_⟩
  · have hsame : s.withInq (s.inq ++ []) = s := by rw [List.append_nil]; rfl
    rw [hsame, hostRun_succ_of_step n hpause]
    exact hostRun_of_not_running n (by simp)
  · have hq' : (s.withInq (s.inq ++ v :: vs)).inq = v :: vs := by rw [State.withInq_inq, hq, List.nil_append]
    exact hostRun_succ_of_step n (step_input hs hi hadr hq')

/-- Settles O51: the jump sets `ip` to what it is. -/
theorem selfJumpNeverReturns : Obligations.SelfJumpNeverReturns := by
  intro s a b x hs hx hy hjump
  have hself : step s = .next s := by
    obtain ⟨hi, hx0⟩ | ⟨hi, hx0⟩ := hjump
    · exact (step_of_fetch hs hi).trans (execJt_taken hx hy hx0 (Int.natCast_nonneg _))
    · exact (step_of_fetch hs hi).trans (execJf_taken hx hy hx0 (Int.natCast_nonneg _))
  exact ⟨hself, hostRun_of_step_self hself⟩

end Sys2Proof.Machine
end
